-- ==== Sys2Proof/Config.lean ====
section
/-! DEFINITION. Config: the parameters of `00_scope.md` R5 and the one free value of the model. -/

namespace Sys2Proof

/-- `W`, the width in bits of every register (R5): any integer of at least 16. It is an argument of the whole
model, of every register value, of the block, of decoding and of each step (R27); nothing fixes it. -/
structure Width where
  bits : Nat
  atLeast : 16 ≤ bits
deriving DecidableEq, Repr

/-- The reference value of `W`, 32, which the spec's opcode table and test vectors use (R5, R61). The model
uses it in two places only: the table's words and the one reset state the host's interface asks for (log 1). -/
abbrev Config.refWidth : Width := ⟨32, by decide⟩

/-- `MODULUS_AFFINE` (R5). -/
abbrev Config.affineModulus : Nat := 26

/-- `MSG_BITS`, the width of an RSA message (R5). -/
abbrev Config.msgBits : Nat := 8

/-- `LATENCY` (R5, R32): how many host accesses are ordered between an acceptance and its completion
step. A free value: it has no body, it is applied to the counter `draws` of State, and nothing can
be proved of it (DESIGN CHOICE of form, log 2; safe). -/
opaque Config.latency : Nat → Nat

end Sys2Proof
end

