-- ==== Sys2Proof/Word.lean ====
section
/-! DEFINITION. Word: the `W`-bit register value and the 4-bit register index. -/

namespace Sys2Proof

/-- The value of a register (R6, R10): an unsigned `W`-bit integer. -/
abbrev Word (W : Width) := BitVec W.bits

/-- A register index on the port's `addr` signal (R10, R41). -/
abbrev RegIndex := BitVec 4

/-- The word holding the natural number `n` (R88: every stored value fits). -/
abbrev Word.ofNat {W : Width} (n : Nat) : Word W := BitVec.ofNat W.bits n

end Sys2Proof
end

