-- ==== Sys2Proof/Syntax.lean ====
section
/-! DEFINITION. Syntax: the fourteen commands (R61), the registers' names (R10), and the host's side,
a line of a host program (R70, R71) and the single actions it stands for. -/

namespace Sys2Proof

/-- The commands of `CORE-CMD` version 1, one constructor per row of the opcode table (R61). A command
word carries no operand (R60), so no constructor has a field. -/
inductive Instr where
  | gcd | isprime | modinv | modpow
  | affKey | affEnc | affDec | affEncc | affDecc | affDrop
  | rsaKey | rsaEnc | rsaDec | rsaDrop
deriving DecidableEq, Repr

/-- The fifteen named registers (R10). -/
inductive Reg where
  | cmd | status | op0 | op1 | op2 | res
  | affA | affB | affAinv
  | rsaP | rsaQ | rsaE | rsaN | rsaPhi | rsaD
deriving DecidableEq, Repr

/-- A line of a host program as it is written (R70, R71): a primitive access, `WAIT`, or a command with
its operands. Numbers are unbounded here; `HostLine.wellFormed` asks for the ranges R70 gives,
and log 12 says what becomes of a number beyond them. -/
inductive HostLine where
  | wr (index value : Nat)
  | rd (index : Nat)
  | wait
  | gcd (a b : Nat)
  | isprime (n : Nat)
  | modinv (a m : Nat)
  | modpow (base exp modulus : Nat)
  | affKey (a b : Nat)
  | affEnc (x : Nat)
  | affDec (y : Nat)
  | affEncc (ch : Nat)
  | affDecc (ch : Nat)
  | affDrop
  | rsaKey (p q e : Nat)
  | rsaEnc (m : Nat)
  | rsaDec (c : Nat)
  | rsaDrop
deriving DecidableEq, Repr

/-- One action of the host: `RegRead`, `RegWrite` (R43, R44), the polling loop `WAIT` (R71), or the
assertion of `rst` (R180, R196). -/
inductive HostAction (W : Width) where
  | read (i : RegIndex)
  | write (i : RegIndex) (v : Word W)
  | wait
  | reset
deriving DecidableEq, Repr

/-- The value one host read returned, with the index it read (R43). -/
structure HostRead (W : Width) where
  index : RegIndex
  value : Word W
deriving DecidableEq, Repr

end Sys2Proof
end

