-- ==== Sys2Proof/WellFormed.lean ====
section
/-! DEFINITION. WellFormed: what a command and a line of a host program must satisfy. -/

namespace Sys2Proof

/-- A command has no field (R60, R63), so there is nothing to check: every command is well formed. -/
def Instr.wellFormed : Instr → Bool
  | .gcd | .isprime | .modinv | .modpow => true
  | .affKey | .affEnc | .affDec | .affEncc | .affDecc | .affDrop => true
  | .rsaKey | .rsaEnc | .rsaDec | .rsaDrop => true

/-- A register index is `0x0 .. 0xF` (R10, R70). -/
def indexOk (i : Nat) : Bool := decide (i < 16)

/-- A value is below `2^W` (R6, R70). -/
def valueOk (W : Width) (v : Nat) : Bool := decide (v < 2 ^ W.bits)

/-- The ranges R70 and R71 ask of a line: indices below 16, every value below `2^W`. -/
def HostLine.wellFormed (W : Width) : HostLine → Bool
  | .wr i v => indexOk i && valueOk W v
  | .rd i => indexOk i
  | .wait => true
  | .gcd a b => valueOk W a && valueOk W b
  | .isprime n => valueOk W n
  | .modinv a m => valueOk W a && valueOk W m
  | .modpow b e m => valueOk W b && valueOk W e && valueOk W m
  | .affKey a b => valueOk W a && valueOk W b
  | .affEnc x => valueOk W x
  | .affDec y => valueOk W y
  | .affEncc ch => valueOk W ch
  | .affDecc ch => valueOk W ch
  | .affDrop => true
  | .rsaKey p q e => valueOk W p && valueOk W q && valueOk W e
  | .rsaEnc m => valueOk W m
  | .rsaDec c => valueOk W c
  | .rsaDrop => true

end Sys2Proof
end

