-- ==== Sys2Proof/Decode.lean ====
section
/-! DEFINITION. Decode: from a command word to a command or a named rejection (R66), total on every
word, and the encoder (R61) after it. There are no bytes inside the block (R47): the unit decoded is
one whole `W`-bit word. -/

namespace Sys2Proof

/-- Why a word is no command (R66, R157). Both complete with the one code ILLEGAL. -/
inductive Illegal where
  /-- some bit of the field `ZERO`, bits `W-1:8`, is set -/
  | zeroField
  /-- `ZERO` is clear and `OPC` is unassigned -/
  | opcode
deriving DecidableEq, Repr

/-- Field `OPC`, bits 7:0 (R60). -/
def opcField {W : Width} (w : Word W) : BitVec 8 := w.extractLsb' 0 8

/-- Field `ZERO`, bits `W-1:8` (R60). -/
def zeroField {W : Width} (w : Word W) : BitVec (W.bits - 8) := w.extractLsb' 8 (W.bits - 8)

/-- The case on `OPC` of R66. -/
def decodeOpc (opc : BitVec 8) : Option Instr :=
  match opc.toNat with
  | 0x01 => some .gcd
  | 0x02 => some .isprime
  | 0x03 => some .modinv
  | 0x04 => some .modpow
  | 0x10 => some .affKey
  | 0x11 => some .affEnc
  | 0x12 => some .affDec
  | 0x13 => some .affEncc
  | 0x14 => some .affDecc
  | 0x1F => some .affDrop
  | 0x20 => some .rsaKey
  | 0x21 => some .rsaEnc
  | 0x22 => some .rsaDec
  | 0x2F => some .rsaDrop
  | _ => none

/-- The decoder (R66): `ZERO` is looked at first, then `OPC`. -/
def decode {W : Width} (w : Word W) : Except Illegal Instr :=
  if zeroField w ≠ 0 then .error .zeroField
  else match decodeOpc (opcField w) with
    | some i => .ok i
    | none => .error .opcode

/-- The opcode of each command (R61). -/
def opcode : Instr → BitVec 8
  | .gcd => 0x01
  | .isprime => 0x02
  | .modinv => 0x03
  | .modpow => 0x04
  | .affKey => 0x10
  | .affEnc => 0x11
  | .affDec => 0x12
  | .affEncc => 0x13
  | .affDecc => 0x14
  | .affDrop => 0x1F
  | .rsaKey => 0x20
  | .rsaEnc => 0x21
  | .rsaDec => 0x22
  | .rsaDrop => 0x2F

/-- The command word of a command: the opcode zero-extended to `W` bits (R60, R61). -/
def encode {W : Width} (i : Instr) : Word W := (opcode i).setWidth W.bits

/-- What the decoder reads from an instruction of the opcode table whose `nbits` bits are `w`, numbered
as the table numbers them; a command is one word (R68), and bits above `nbits` are 0. The table's words
are those of the reference width (R61; log 1). -/
def decodeTableWord (nbits w : Nat) : Option Instr :=
  match decode (Word.ofNat (W := Config.refWidth) (w % 2 ^ nbits)) with
  | .ok i => some i
  | .error _ => none

end Sys2Proof
end

