-- ==== Sys2Proof/Machine/State.lean ====
section
/-! DEFINITION. State: the block's registers, exactly the record of `10_state.md` R34, for every width, and
the machine, which holds the width, the block, the host agent and the two fields of the open latency. Plain
data. -/

namespace Sys2Proof.Machine

/-- The error codes by name (R150). -/
inductive ErrCode where
  | ok | invalidKey | noInverse | noKey | operand | range | divZero | illegal
deriving DecidableEq, Repr

/-- The block: the record of R34, with exactly its fields, at any width. STATUS is computed from `busy` to `err`
(R14) and index 0xF holds nothing (R25). -/
structure Block (W : Width) where
  /-- CMD, index 0x0 (R13) -/
  cmd : Word W
  /-- OP0, index 0x2 (R11) -/
  op0 : Word W
  /-- OP1, index 0x3 (R11) -/
  op1 : Word W
  /-- OP2, index 0x4 (R11) -/
  op2 : Word W
  /-- RES, index 0x5 (R12) -/
  res : Word W
  /-- STATUS.BUSY (R15) -/
  busy : Bool
  /-- STATUS.DONE (R16) -/
  done : Bool
  /-- STATUS.AKV (R17) -/
  akv : Bool
  /-- STATUS.RKV (R17) -/
  rkv : Bool
  /-- STATUS.OVR (R18) -/
  ovr : Bool
  /-- STATUS.ERR (R19) -/
  err : BitVec 4
  /-- AFF_A, index 0x6 (R21) -/
  aff_a : Word W
  /-- AFF_B, index 0x7 (R21) -/
  aff_b : Word W
  /-- AFF_AINV, index 0x8 (R21) -/
  aff_ainv : Word W
  /-- RSA_P, index 0x9 (R22) -/
  rsa_p : Word W
  /-- RSA_Q, index 0xA (R22) -/
  rsa_q : Word W
  /-- RSA_E, index 0xB (R22) -/
  rsa_e : Word W
  /-- RSA_N, index 0xC (R22) -/
  rsa_n : Word W
  /-- RSA_PHI, index 0xD (R22) -/
  rsa_phi : Word W
  /-- RSA_D, index 0xE (R22) -/
  rsa_d : Word W
deriving DecidableEq, Repr

/-- The block right after reset (R33): every register 0, no key, no error. -/
def Block.reset {W : Width} : Block W where
  cmd := 0
  op0 := 0
  op1 := 0
  op2 := 0
  res := 0
  busy := false
  done := false
  akv := false
  rkv := false
  ovr := false
  err := 0
  aff_a := 0
  aff_b := 0
  aff_ainv := 0
  rsa_p := 0
  rsa_q := 0
  rsa_e := 0
  rsa_n := 0
  rsa_phi := 0
  rsa_d := 0

/-- The machine: the parameter `W` of the step (R27), the block at that width, the host agent, and the two
fields that carry the open latency. `W` is no state of the block: no step changes it (log 1). -/
structure State where
  /-- the parameter `W`, fixed for the machine (R5, R27; log 1) -/
  W : Width
  /-- the block (R34) -/
  block : Block W
  /-- the host agent: what it will do (R20, R70; log 3) -/
  prog : List (HostAction W)
  /-- the host agent: its position in `prog` (R20) -/
  index : Nat
  /-- the host agent: what its reads returned, oldest first (R43; log 3) -/
  reads : List (HostRead W)
  /-- MODEL's own: host accesses still ordered before the completion step of the command in flight,
  read only while the block is busy (R5, R32; log 2) -/
  wait : Nat
  /-- MODEL's own: the counter `Config.latency` is applied to (log 2) -/
  draws : Nat
deriving DecidableEq, Repr

/-- Reasons to stop with a fault: there are none. No behaviour of the block is stuck, and an error is a
way for a command to complete (R160; `93_implementation_defined.md`, the closing words of Part 1). -/
inductive Fault
deriving DecidableEq, Repr

/-- Reasons to refuse. -/
inductive Refusal where
  /-- raised by an arm of `exec` whose instruction has no meaning yet; no arm raises it. Safe. -/
  | notModelled (mnemonic : String)
deriving DecidableEq, Repr

/-- The machine of width `W` right after reset (R33). The host agent's and the model's own fields are empty and
0: DESIGN CHOICE (logs 2 and 3). -/
def State.resetAt (W : Width) : State where
  W := W
  block := Block.reset
  prog := []
  index := 0
  reads := []
  wait := 0
  draws := 0

/-- The machine right after reset, at the reference width (log 1). -/
def State.reset : State := State.resetAt Config.refWidth

/-- `s` with another content of the block. -/
def State.withBlock (s : State) (b : Block s.W) : State := { s with block := b }

end Sys2Proof.Machine
end

