-- ==== Sys2Proof/Machine/Flags.lean ====
section
/-! DEFINITION. Flags: the error codes' numbers (R150), the STATUS word (R14, R43) and its fields. -/

namespace Sys2Proof.Machine

/-- The 4-bit code of each error (R150). Codes 8 to 15 are never produced. -/
def ErrCode.code : ErrCode → BitVec 4
  | .ok => 0
  | .invalidKey => 1
  | .noInverse => 2
  | .noKey => 3
  | .operand => 4
  | .range => 5
  | .divZero => 6
  | .illegal => 7

/-- A flag as a word with the flag in bit `k`. -/
def flagAt {W : Width} (b : Bool) (k : Nat) : Word W := (BitVec.ofBool b).setWidth W.bits <<< k

/-- `RegRead(0x1)`: the STATUS word (R14, R43). Bits 7:5 and `W-1:12` are 0. -/
def Block.statusWord {W : Width} (b : Block W) : Word W :=
  b.err.setWidth W.bits <<< 8 ||| flagAt b.ovr 4 ||| flagAt b.rkv 3 ||| flagAt b.akv 2
    ||| flagAt b.done 1 ||| flagAt b.busy 0

/-- BUSY of a STATUS word: bit 0, what a host's `WAIT` tests (R14, R71). -/
def statusBusy {W : Width} (w : Word W) : Bool := w.getLsbD 0

/-- DONE of a STATUS word: bit 1 (R14). -/
def statusDone {W : Width} (w : Word W) : Bool := w.getLsbD 1

/-- AKV of a STATUS word: bit 2 (R14). -/
def statusAkv {W : Width} (w : Word W) : Bool := w.getLsbD 2

/-- RKV of a STATUS word: bit 3 (R14). -/
def statusRkv {W : Width} (w : Word W) : Bool := w.getLsbD 3

/-- OVR of a STATUS word: bit 4 (R14). -/
def statusOvr {W : Width} (w : Word W) : Bool := w.getLsbD 4

/-- ERR of a STATUS word: bits 11:8 (R14). -/
def statusErr {W : Width} (w : Word W) : BitVec 4 := w.extractLsb' 8 4

end Sys2Proof.Machine
end

