-- ==== Sys2Proof/Machine/Operands.lean ====
section
/-! DEFINITION. Operands: what a command reads. There is one operand form (R63): the whole unsigned
value of OP0, OP1, OP2 or a key register; nothing is immediate, scaled, extended or truncated. Beside
it, the character classes of R105. -/

namespace Sys2Proof.Machine

/-- The operand in OP0, an unsigned integer (R6, R63). -/
abbrev Block.operand0 {W : Width} (b : Block W) : Nat := b.op0.toNat

/-- The operand in OP1. -/
abbrev Block.operand1 {W : Width} (b : Block W) : Nat := b.op1.toNat

/-- The operand in OP2. -/
abbrev Block.operand2 {W : Width} (b : Block W) : Nat := b.op2.toNat

/-- `'A' .. 'Z'` (R105). -/
def isUpper (ch : Nat) : Bool := decide (0x41 ≤ ch) && decide (ch ≤ 0x5A)

/-- `'a' .. 'z'` (R105). -/
def isLower (ch : Nat) : Bool := decide (0x61 ≤ ch) && decide (ch ≤ 0x7A)

/-- One of the 52 letters (R105). -/
def isLetter (ch : Nat) : Bool := isUpper ch || isLower ch

/-- The case-folded position of a letter, 0 to 25 (R105); used only where `isLetter ch`. -/
def position (ch : Nat) : Nat := if isUpper ch then ch - 0x41 else ch - 0x61

/-- The lower-case letter at position `x` (R105). -/
def letter (x : Nat) : Nat := 0x61 + x

end Sys2Proof.Machine
end

