-- ==== Sys2Proof/Machine/Ops.lean ====
section
/-! DEFINITION. Ops: the named operations over the registers: how a command ends, well or in an error
(R31, R160), the writes of the two key stores (R23), acceptance (R30), the host's two primitives (R43,
R44) and reset (R180). -/

namespace Sys2Proof.Machine

/-- The end of every completion step (R31): RES and ERR written, BUSY cleared, DONE set, nothing else. -/
def Block.finish {W : Width} (b : Block W) (v : Word W) (e : ErrCode) : Block W :=
  { b with res := v, err := e.code, busy := false, done := true }

/-- A normal end with result `n` (R31). -/
def Block.succeed {W : Width} (b : Block W) (n : Nat) : Block W := b.finish (Word.ofNat n) .ok

/-- `fail <ERR>`, the block's one exception entry (R160): RES becomes 0, ERR the code, BUSY 0, DONE 1;
nothing is saved and control goes nowhere. There is nothing to return from (R164). -/
def Block.fail {W : Width} (b : Block W) (e : ErrCode) : Block W := b.finish 0 e

/-- The affine store written whole (R23). -/
def Block.setAff {W : Width} (b : Block W) (x y inv : Word W) (valid : Bool) : Block W :=
  { b with aff_a := x, aff_b := y, aff_ainv := inv, akv := valid }

/-- The affine store without a key: three zeros, AKV 0 (R24, R100, R140). -/
def Block.dropAff {W : Width} (b : Block W) : Block W := b.setAff 0 0 0 false

/-- The RSA store written whole (R23). -/
def Block.setRsa {W : Width} (b : Block W) (p q e n phi d : Word W) (valid : Bool) : Block W :=
  { b with rsa_p := p, rsa_q := q, rsa_e := e, rsa_n := n, rsa_phi := phi, rsa_d := d, rkv := valid }

/-- `drop_rsa`: the RSA store without a key, six zeros, RKV 0 (R24, R120, R141). -/
def Block.dropRsa {W : Width} (b : Block W) : Block W := b.setRsa 0 0 0 0 0 0 false

/-- Acceptance of the command word `v` (R30). -/
def Block.accept {W : Width} (b : Block W) (v : Word W) : Block W := { b with cmd := v, busy := true, done := false }

/-- The one effect of a host write while busy to CMD or an operand register (R45). -/
def Block.setOvr {W : Width} (b : Block W) : Block W := { b with ovr := true }

/-- A write of OP0 (R44). -/
def Block.setOp0 {W : Width} (b : Block W) (v : Word W) : Block W := { b with op0 := v }

/-- A write of OP1 (R44). -/
def Block.setOp1 {W : Width} (b : Block W) (v : Word W) : Block W := { b with op1 := v }

/-- A write of OP2 (R44). -/
def Block.setOp2 {W : Width} (b : Block W) (v : Word W) : Block W := { b with op2 := v }

/-- The index of each named register (R10). -/
def regIndex : Reg → RegIndex
  | .cmd => 0x0
  | .status => 0x1
  | .op0 => 0x2
  | .op1 => 0x3
  | .op2 => 0x4
  | .res => 0x5
  | .affA => 0x6
  | .affB => 0x7
  | .affAinv => 0x8
  | .rsaP => 0x9
  | .rsaQ => 0xA
  | .rsaE => 0xB
  | .rsaN => 0xC
  | .rsaPhi => 0xD
  | .rsaD => 0xE

/-- `RegRead(i)` (R43): the current value of the register at index `i`; no side effect. -/
def Block.regRead {W : Width} (b : Block W) (i : RegIndex) : Word W :=
  match i.toNat with
  | 0x0 => b.cmd
  | 0x1 => b.statusWord
  | 0x2 => b.op0
  | 0x3 => b.op1
  | 0x4 => b.op2
  | 0x5 => b.res
  | 0x6 => b.aff_a
  | 0x7 => b.aff_b
  | 0x8 => b.aff_ainv
  | 0x9 => b.rsa_p
  | 0xA => b.rsa_q
  | 0xB => b.rsa_e
  | 0xC => b.rsa_n
  | 0xD => b.rsa_phi
  | 0xE => b.rsa_d
  | _ => 0

/-- `RegWrite(i, v)` (R44): CMD and the operand registers when not busy; dropped with OVR set when busy
(R45); the read-only and reserved indices ignore it. -/
def Block.regWrite {W : Width} (b : Block W) (i : RegIndex) (v : Word W) : Block W :=
  match i.toNat with
  | 0x0 => if b.busy then b.setOvr else b.accept v
  | 0x2 => if b.busy then b.setOvr else b.setOp0 v
  | 0x3 => if b.busy then b.setOvr else b.setOp1 v
  | 0x4 => if b.busy then b.setOvr else b.setOp2 v
  | _ => b

/-- The assertion of `rst` (R180, R181): every register of R10 becomes 0, whatever is in flight. The host
agent and the latency fields are not the block's and stay. -/
def State.blockReset (s : State) : State := s.withBlock Block.reset

/-- The machine as it is when the completion step of the word `v` is next: `v` accepted, and no host access
ordered before the completion step. -/
def State.inFlight (s : State) (v : Word s.W) : State := { s with block := s.block.accept v, wait := 0 }

end Sys2Proof.Machine
end

