-- ==== Sys2Proof/Machine/Arith.lean ====
section
/-! DEFINITION. Arith: the pure functions of the five units, on natural numbers, exact (R6, R90). Loops
run on fuel that R32's termination argument shows to be enough; the laws of `Laws/Arith.lean` say that
it is. -/

namespace Sys2Proof.Machine

/-- The Euclidean loop of R81: `(a, b) <- (b, a mod b)` until `b = 0`. -/
def euclidLoop : Nat → Nat → Nat → Nat
  | 0, a, _ => a
  | fuel + 1, a, b => if b = 0 then a else euclidLoop fuel b (a % b)

/-- `gcd(a, b)` (R81). `b` strictly decreases, so `b + 1` rounds are enough. -/
def euclidGcd (a b : Nat) : Nat := euclidLoop (b + 1) a b

/-- Digit by digit in base 4: the greatest `r` with `r*r ≤ n` (R8). -/
def floorSqrtLoop : Nat → Nat → Nat
  | 0, _ => 0
  | fuel + 1, n =>
    if n = 0 then 0
    else
      let r := 2 * floorSqrtLoop fuel (n / 4)
      if (r + 1) * (r + 1) ≤ n then r + 1 else r

/-- `floor_sqrt(n)` (R8). -/
def floorSqrt (n : Nat) : Nat := floorSqrtLoop n n

/-- Trial division (R83): none of the last `k` numbers up to `top` divides `n`; the smallest is tried first. -/
def noDivisor (n top : Nat) : Nat → Bool
  | 0 => true
  | k + 1 => if n % (top - k) = 0 then false else noDivisor n top k

/-- `is_prime(n)` (R83): no divisor from 2 to `floor_sqrt(n)`, inclusive. -/
def isPrime (n : Nat) : Bool := decide (2 ≤ n) && noDivisor n (floorSqrt n) (floorSqrt n - 1)

/-- R85's search, as the spec writes it: the first `x` in `[1, m-1]` with `(a*x) mod m = 1`. -/
def searchInverse (a m : Nat) : Option Nat :=
  (List.range' 1 (m - 1)).find? fun x => decide (a * x % m = 1)

/-- Extended Euclid on the pair `(r0, r1)`, with the coefficients of `a` beside it; answers the coefficient
of the last nonzero remainder. -/
def bezoutLoop : Nat → Nat → Nat → Int → Int → Int
  | 0, _, _, t0, _ => t0
  | fuel + 1, r0, r1, t0, t1 =>
    if r1 = 0 then t0 else bezoutLoop fuel r1 (r0 % r1) t1 (t0 - (r0 / r1 : Nat) * t1)

/-- The only number below `m` that can be an inverse of `a` modulo `m`. -/
def inverseCandidate (a m : Nat) : Nat := (bezoutLoop (m + 1) m (a % m) 0 1 % (m : Int)).toNat

/-- `mod_inverse(a, m)` (R85): the value of R85's search, found by extended Euclid, which R80 allows where
the results are the same, and then put to R85's own test. `modInverse_eq_search` proves that it is
`searchInverse a m` for every `a` and `m` (DEDUCED, log 7). -/
def modInverse (a m : Nat) : Option Nat :=
  let x := inverseCandidate a m
  if 1 ≤ x ∧ x ≤ m - 1 ∧ a * x % m = 1 then some x else none

/-- The square-and-multiply loop of R87. -/
def modPowLoop (modulus : Nat) : Nat → Nat → Nat → Nat → Nat
  | 0, result, _, _ => result
  | fuel + 1, result, b, e =>
    if e = 0 then result
    else modPowLoop modulus fuel (if e % 2 = 1 then result * b % modulus else result)
      (b * b % modulus) (e / 2)

/-- `mod_pow(base, exp, modulus)`, for `modulus ≥ 1` (R87). The exponent halves, so `exp + 1` rounds are
enough. -/
def modPow (base exp modulus : Nat) : Nat := modPowLoop modulus (exp + 1) 1 (base % modulus) exp

/-- `aff_fwd(a, b, x)` (R101). -/
def affFwd (a b x : Nat) : Nat := (a * x + b) % Config.affineModulus

/-- `aff_inv(a_inv, b, y)` (R102). `y - b` is an integer and may be negative; the remainder is the floor
remainder (R8), which `Int`'s `%` is for a positive modulus. -/
def affInv (ainv b y : Nat) : Nat := ((ainv : Int) * ((y : Int) - (b : Int)) % (Config.affineModulus : Int)).toNat

end Sys2Proof.Machine
end

