-- ==== Sys2Proof/Machine/Affine.lean ====
section
/-! DEFINITION. Affine: the completion steps of group 1, the affine unit modulo 26, on the block of any width. -/

namespace Sys2Proof.Machine

/-- AFF.KEY (R100, R161). `a` and `b` are stored as given. The inverse is never `none` where the gcd check
passed; that arm is never taken and answers as RSA.KEY does (log 9). -/
def Block.affKey {W : Width} (b : Block W) : Block W :=
  if euclidGcd b.operand0 Config.affineModulus ≠ 1 then b.dropAff.fail .invalidKey
  else match modInverse b.operand0 Config.affineModulus with
    | none => b.dropAff.fail .noInverse
    | some ainv => (b.setAff b.op0 b.op1 (Word.ofNat ainv) true).succeed ainv

/-- A transform of a position with the checks of R103 and R104, in their order (R162). -/
def affPosition {W : Width} (b : Block W) (f : Nat → Nat) : Block W :=
  if b.akv = false then b.fail .noKey
  else if Config.affineModulus ≤ b.operand0 then b.fail .operand
  else b.succeed (f b.operand0)

/-- A transform of a character with the check and the letter rule of R106 and R107. -/
def affCharacter {W : Width} (b : Block W) (f : Nat → Nat) : Block W :=
  if b.akv = false then b.fail .noKey
  else if isLetter b.operand0 then b.succeed (letter (f (position b.operand0)))
  else b.succeed b.operand0

/-- AFF.ENC (R103). -/
def Block.affEnc {W : Width} (b : Block W) : Block W := affPosition b (affFwd b.aff_a.toNat b.aff_b.toNat)

/-- AFF.DEC (R104). -/
def Block.affDec {W : Width} (b : Block W) : Block W := affPosition b (affInv b.aff_ainv.toNat b.aff_b.toNat)

/-- AFF.ENCC (R106). -/
def Block.affEncc {W : Width} (b : Block W) : Block W := affCharacter b (affFwd b.aff_a.toNat b.aff_b.toNat)

/-- AFF.DECC (R107). -/
def Block.affDecc {W : Width} (b : Block W) : Block W := affCharacter b (affInv b.aff_ainv.toNat b.aff_b.toNat)

/-- AFF.DROP (R140). -/
def Block.affDrop {W : Width} (b : Block W) : Block W := b.dropAff.succeed 0

/-- AFF.KEY's completion step changes the block alone (R31). -/
def execAffKey (s : State) : Host.Outcome State Fault Refusal := .next (s.withBlock s.block.affKey)

/-- AFF.ENC's completion step (R31). -/
def execAffEnc (s : State) : Host.Outcome State Fault Refusal := .next (s.withBlock s.block.affEnc)

/-- AFF.DEC's completion step (R31). -/
def execAffDec (s : State) : Host.Outcome State Fault Refusal := .next (s.withBlock s.block.affDec)

/-- AFF.ENCC's completion step (R31). -/
def execAffEncc (s : State) : Host.Outcome State Fault Refusal := .next (s.withBlock s.block.affEncc)

/-- AFF.DECC's completion step (R31). -/
def execAffDecc (s : State) : Host.Outcome State Fault Refusal := .next (s.withBlock s.block.affDecc)

/-- AFF.DROP's completion step (R31). -/
def execAffDrop (s : State) : Host.Outcome State Fault Refusal := .next (s.withBlock s.block.affDrop)

end Sys2Proof.Machine
end

