-- ==== Sys2Proof/Machine/Primitives.lean ====
section
/-! DEFINITION. Primitives: the completion steps of group 0, GCD, ISPRIME, MODINV, MODPOW, on the block of any
width. -/

namespace Sys2Proof.Machine

/-- GCD (R82). -/
def Block.gcd {W : Width} (b : Block W) : Block W := b.succeed (euclidGcd b.operand0 b.operand1)

/-- ISPRIME (R84). -/
def Block.isprime {W : Width} (b : Block W) : Block W := b.succeed (if isPrime b.operand0 then 1 else 0)

/-- MODINV (R86). -/
def Block.modinv {W : Width} (b : Block W) : Block W :=
  match modInverse b.operand0 b.operand1 with
  | none => b.fail .noInverse
  | some x => b.succeed x

/-- MODPOW (R89): the modulus is checked before anything else. -/
def Block.modpow {W : Width} (b : Block W) : Block W :=
  if b.operand2 = 0 then b.fail .divZero
  else b.succeed (modPow b.operand0 b.operand1 b.operand2)

/-- GCD's completion step changes the block alone (R31). -/
def execGcd (s : State) : Host.Outcome State Fault Refusal := .next (s.withBlock s.block.gcd)

/-- ISPRIME's completion step (R31). -/
def execIsprime (s : State) : Host.Outcome State Fault Refusal := .next (s.withBlock s.block.isprime)

/-- MODINV's completion step (R31). -/
def execModinv (s : State) : Host.Outcome State Fault Refusal := .next (s.withBlock s.block.modinv)

/-- MODPOW's completion step (R31). -/
def execModpow (s : State) : Host.Outcome State Fault Refusal := .next (s.withBlock s.block.modpow)

end Sys2Proof.Machine
end

