-- ==== Sys2Proof/Machine/Rsa.lean ====
section
/-! DEFINITION. Rsa: the completion steps of group 2, the RSA engine, on the block of any width. -/

namespace Sys2Proof.Machine

/-- RSA.KEY (R120, R121, R161), its checks in the order of R162. `n` is checked against `2^W` before it is
stored; every other stored value is smaller (R88). -/
def Block.rsaKey {W : Width} (b : Block W) : Block W :=
  let p := b.operand0
  let q := b.operand1
  let e := b.operand2
  let phi := (p - 1) * (q - 1)
  let n := p * q
  if isPrime p = false ∨ isPrime q = false then b.dropRsa.fail .invalidKey
  else if euclidGcd e phi ≠ 1 then b.dropRsa.fail .invalidKey
  else if 2 ^ W.bits ≤ n then b.dropRsa.fail .range
  else match modInverse e phi with
    | none => b.dropRsa.fail .noInverse
    | some d =>
      (b.setRsa b.op0 b.op1 b.op2 (Word.ofNat n) (Word.ofNat phi) (Word.ofNat d) true).succeed d

/-- RSA.ENC (R122): the key, then the message's range, are checked; `m < n` is not (R126). -/
def Block.rsaEnc {W : Width} (b : Block W) : Block W :=
  if b.rkv = false then b.fail .noKey
  else if 2 ^ Config.msgBits ≤ b.operand0 then b.fail .operand
  else b.succeed (modPow b.operand0 b.rsa_e.toNat b.rsa_n.toNat)

/-- RSA.DEC (R124): the whole value, not cut to 8 bits (R127). -/
def Block.rsaDec {W : Width} (b : Block W) : Block W :=
  if b.rkv = false then b.fail .noKey
  else b.succeed (modPow b.operand0 b.rsa_d.toNat b.rsa_n.toNat)

/-- RSA.DROP (R141). -/
def Block.rsaDrop {W : Width} (b : Block W) : Block W := b.dropRsa.succeed 0

/-- RSA.KEY's completion step changes the block alone (R31). -/
def execRsaKey (s : State) : Host.Outcome State Fault Refusal := .next (s.withBlock s.block.rsaKey)

/-- RSA.ENC's completion step (R31). -/
def execRsaEnc (s : State) : Host.Outcome State Fault Refusal := .next (s.withBlock s.block.rsaEnc)

/-- RSA.DEC's completion step (R31). -/
def execRsaDec (s : State) : Host.Outcome State Fault Refusal := .next (s.withBlock s.block.rsaDec)

/-- RSA.DROP's completion step (R31). -/
def execRsaDrop (s : State) : Host.Outcome State Fault Refusal := .next (s.withBlock s.block.rsaDrop)

end Sys2Proof.Machine
end

