-- ==== Sys2Proof/Machine/Dispatch.lean ====
section
/-! DEFINITION. Dispatch: the completion step of each legal command (R31, R66), one arm a command. -/

namespace Sys2Proof.Machine

def exec (i : Instr) (s : State) : Host.Outcome State Fault Refusal :=
  match i with
  | .gcd => Sys2Proof.Machine.execGcd s
  | .isprime => Sys2Proof.Machine.execIsprime s
  | .modinv => Sys2Proof.Machine.execModinv s
  | .modpow => Sys2Proof.Machine.execModpow s
  | .affKey => Sys2Proof.Machine.execAffKey s
  | .affEnc => Sys2Proof.Machine.execAffEnc s
  | .affDec => Sys2Proof.Machine.execAffDec s
  | .affEncc => Sys2Proof.Machine.execAffEncc s
  | .affDecc => Sys2Proof.Machine.execAffDecc s
  | .affDrop => Sys2Proof.Machine.execAffDrop s
  | .rsaKey => Sys2Proof.Machine.execRsaKey s
  | .rsaEnc => Sys2Proof.Machine.execRsaEnc s
  | .rsaDec => Sys2Proof.Machine.execRsaDec s
  | .rsaDrop => Sys2Proof.Machine.execRsaDrop s

end Sys2Proof.Machine
end

