-- ==== Sys2Proof/Machine/Engine.lean ====
section
/-! DEFINITION. Engine: the completion step on the stored command word (R31, R66), and when it is taken. -/

namespace Sys2Proof.Machine

/-- The completion step (R31): decode CMD, run the command or `fail ILLEGAL` (R66, R157). -/
def completionStep (s : State) : Host.Outcome State Fault Refusal :=
  match decode s.block.cmd with
  | .ok i => exec i s
  | .error _ => .next (s.withBlock (s.block.fail .illegal))

/-- The host has performed the last access of its list (R20, R183). -/
def State.hostDone (s : State) : Bool := decide (s.prog.length ≤ s.index)

/-- The engine takes the next step: a command is in flight (R15) and no host access is ordered before its
completion step any more, by the free latency or because the host has none left (R32, R183; log 4). -/
def State.engineTurn (s : State) : Bool := s.block.busy && (decide (s.wait = 0) || s.hostDone)

end Sys2Proof.Machine
end

