-- ==== Sys2Proof/Machine/HostAgent.lean ====
section
/-! DEFINITION. HostAgent: one access of the host (R7, R42), and the draw of a command's latency. -/

namespace Sys2Proof.Machine

/-- The host's index advances by 1 after an access (R20). -/
def State.advance (s : State) : State := { s with index := s.index + 1 }

/-- The host reads index `i` (R43): the value goes to the host, the block is unchanged. -/
def State.logRead (s : State) (i : RegIndex) : State :=
  { s with reads := s.reads ++ [⟨i, s.block.regRead i⟩] }

/-- The latency of a newly accepted command, a free value (R5, R27; log 2). -/
def State.drawLatency (s : State) : State :=
  { s with wait := Config.latency s.draws, draws := s.draws + 1 }

/-- The host writes `v` to index `i` (R44); an acceptance draws the command's latency. -/
def State.hostWrite (s : State) (i : RegIndex) (v : Word s.W) : State :=
  let t := s.withBlock (s.block.regWrite i v)
  if s.block.busy = false ∧ t.block.busy then t.drawLatency else t

/-- One poll of `WAIT` (R71): read STATUS; the line is over when bit 0 was 0 (log 3). -/
def State.poll (s : State) : State :=
  let t := s.logRead (regIndex .status)
  if statusBusy (s.block.regRead (regIndex .status)) then t else t.advance

/-- One action of the host's list. -/
def State.hostAct (s : State) : HostAction s.W → State
  | .read i => (s.logRead i).advance
  | .write i v => (s.hostWrite i v).advance
  | .wait => s.poll
  | .reset => s.blockReset.advance

/-- One of the drawn latency's host accesses is over (R32; log 2). -/
def State.tick (s : State) : State := { s with wait := s.wait - 1 }

/-- The host's turn: its next action, which uses up one access of the latency of a command in flight; none is
left, nothing happens (R183; log 6). -/
def State.hostStep (s : State) : State :=
  match s.prog[s.index]? with
  | none => s
  | some act => if s.block.busy then (s.hostAct act).tick else s.hostAct act

end Sys2Proof.Machine
end

