-- ==== Sys2Proof/Machine/Step.lean ====
section
/-! DEFINITION. Step: one event of the total order (R42): the engine's completion step where it is the
engine's turn, else the host's next action. -/

namespace Sys2Proof.Machine

/-- One step of the machine (R7, R42, R50). -/
def step (s : State) : Host.Outcome State Fault Refusal :=
  if s.engineTurn then completionStep s else .next s.hostStep

/-- `s` with the command word `w` accepted and its completion step next, so that the very next step runs it.
It stands for the host's acceptance of that word (R30; log 3). -/
def State.withFetchWord (s : State) (nbits w : Nat) : State := s.inFlight (Word.ofNat (w % 2 ^ nbits))

end Sys2Proof.Machine
end

