-- ==== Sys2Proof/Machine/HostProgram.lean ====
section
/-! DEFINITION. HostProgram: the expansion of a host program's lines (R70, R71), the loading of a program
from outside the machine (log 3), and the host's two string conventions (R109, R123). -/

namespace Sys2Proof.Machine

/-- `WR <reg>, <value>`. -/
def wrReg {W : Width} (r : Reg) (v : Nat) : HostAction W := .write (regIndex r) (Word.ofNat v)

/-- `RD <reg>`. -/
def rdReg {W : Width} (r : Reg) : HostAction W := .read (regIndex r)

/-- `WR CMD, <command word> ; WAIT` (R71). -/
def issue {W : Width} (i : Instr) : List (HostAction W) := [.write (regIndex .cmd) (encode i), .wait]

/-- The expansions of R71.
DESIGN CHOICE (log 12): for a line R70 does not allow (not `HostLine.wellFormed`) R48 leaves the access to the
platform. Such an index is taken modulo 16 and such a value modulo `2^W`. -/
def expandLine {W : Width} : HostLine → List (HostAction W)
  | .wr i v => [.write (BitVec.ofNat 4 i) (Word.ofNat v)]
  | .rd i => [.read (BitVec.ofNat 4 i)]
  | .wait => [.wait]
  | .gcd a b => [wrReg .op0 a, wrReg .op1 b] ++ issue .gcd ++ [rdReg .res]
  | .isprime n => [wrReg .op0 n] ++ issue .isprime ++ [rdReg .res]
  | .modinv a m => [wrReg .op0 a, wrReg .op1 m] ++ issue .modinv ++ [rdReg .status, rdReg .res]
  | .modpow b e m =>
    [wrReg .op0 b, wrReg .op1 e, wrReg .op2 m] ++ issue .modpow ++ [rdReg .status, rdReg .res]
  | .affKey a b => [wrReg .op0 a, wrReg .op1 b] ++ issue .affKey ++ [rdReg .status]
  | .affEnc x => [wrReg .op0 x] ++ issue .affEnc ++ [rdReg .status, rdReg .res]
  | .affDec y => [wrReg .op0 y] ++ issue .affDec ++ [rdReg .status, rdReg .res]
  | .affEncc ch => [wrReg .op0 ch] ++ issue .affEncc ++ [rdReg .status, rdReg .res]
  | .affDecc ch => [wrReg .op0 ch] ++ issue .affDecc ++ [rdReg .status, rdReg .res]
  | .affDrop => issue .affDrop
  | .rsaKey p q e => [wrReg .op0 p, wrReg .op1 q, wrReg .op2 e] ++ issue .rsaKey ++ [rdReg .status]
  | .rsaEnc m => [wrReg .op0 m] ++ issue .rsaEnc ++ [rdReg .status, rdReg .res]
  | .rsaDec c => [wrReg .op0 c] ++ issue .rsaDec ++ [rdReg .status, rdReg .res]
  | .rsaDrop => issue .rsaDrop

/-- The actions of a host program (R70). -/
def expandProgram {W : Width} (p : List HostLine) : List (HostAction W) := p.flatMap expandLine

/-- The host is given a program from outside the machine, at its first line (R20; log 3). Whether the
lines are well formed is not checked here (log 12). -/
def State.loadProgram (s : State) (p : List HostLine) : State :=
  { s with prog := expandProgram p, index := 0, reads := [] }

/-- `AffineCipher.encrypt` of a string, on this block: one AFF.ENCC per character, in order (R109). -/
def encryptText (codes : List Nat) : List HostLine := codes.map HostLine.affEncc

/-- `AffineCipher.decrypt` of a string: one AFF.DECC per character, in order (R109). -/
def decryptText (codes : List Nat) : List HostLine := codes.map HostLine.affDecc

/-- `parse` of R123: the digits of a message string, most significant first.
DESIGN CHOICE (log 10): R123 gives it for exactly 8 characters, and N22 leaves every other length open, but for a
shorter string, which has the value of its zero-padded form (C1); the model takes the same sum at every length, so
an empty string has the value 0 and a string longer than 8 its whole value. -/
def parseMessage (digits : List Bool) : Nat := digits.foldl (fun m d => 2 * m + d.toNat) 0

/-- The base-2 digits of `m`, most significant first, a single 0 for `m = 0` (R123); at most `fuel + 1` of them. -/
def binaryDigits : Nat → Nat → List Bool
  | 0, m => [decide (m % 2 = 1)]
  | fuel + 1, m =>
    if m < 2 then [decide (m = 1)] else binaryDigits fuel (m / 2) ++ [decide (m % 2 = 1)]

/-- `format` of R123: the digits of `m`, padded on the left with 0 to at least 8, never shortened. -/
def formatMessage (m : Nat) : List Bool :=
  let ds := binaryDigits m m
  List.replicate (Config.msgBits - ds.length) false ++ ds

end Sys2Proof.Machine
end

