-- ==== Sys2Proof/Safety.lean ====
section
/-! DEFINITION. Safety: the invariants of `10_state.md` R34 and the named premises of
`70_reset_and_hazards.md` R197 and R183. -/

namespace Sys2Proof.Safety

open Sys2Proof.Machine

/-- The affine store holds no key: three zeros (R24). -/
def AffZero {W : Width} (b : Block W) : Prop := b.aff_a = 0 ∧ b.aff_b = 0 ∧ b.aff_ainv = 0

/-- The affine store holds a key (R21, R34, its line for `akv = 1`). -/
structure AffKeyOk {W : Width} (b : Block W) : Prop where
  coprime : euclidGcd b.aff_a.toNat 26 = 1
  low : 1 ≤ b.aff_ainv.toNat
  high : b.aff_ainv.toNat ≤ 25
  isInverse : b.aff_a.toNat * b.aff_ainv.toNat % 26 = 1

/-- The RSA store holds no key: six zeros (R24). -/
def RsaZero {W : Width} (b : Block W) : Prop :=
  b.rsa_p = 0 ∧ b.rsa_q = 0 ∧ b.rsa_e = 0 ∧ b.rsa_n = 0 ∧ b.rsa_phi = 0 ∧ b.rsa_d = 0

/-- The RSA store holds a key (R22, R34, its line for `rkv = 1`). -/
structure RsaKeyOk {W : Width} (b : Block W) : Prop where
  pPrime : isPrime b.rsa_p.toNat = true
  qPrime : isPrime b.rsa_q.toNat = true
  modulus : b.rsa_n.toNat = b.rsa_p.toNat * b.rsa_q.toNat
  phi : b.rsa_phi.toNat = (b.rsa_p.toNat - 1) * (b.rsa_q.toNat - 1)
  phiLow : 2 ≤ b.rsa_phi.toNat
  coprime : euclidGcd b.rsa_e.toNat b.rsa_phi.toNat = 1
  dLow : 1 ≤ b.rsa_d.toNat
  dHigh : b.rsa_d.toNat ≤ b.rsa_phi.toNat - 1
  isInverse : b.rsa_e.toNat * b.rsa_d.toNat % b.rsa_phi.toNat = 1

/-- The affine store with its flag is in `c` what it is in `b` (R23). -/
def SameAffStore {W : Width} (b c : Block W) : Prop :=
  c.akv = b.akv ∧ c.aff_a = b.aff_a ∧ c.aff_b = b.aff_b ∧ c.aff_ainv = b.aff_ainv

/-- The RSA store with its flag is in `c` what it is in `b` (R23). -/
def SameRsaStore {W : Width} (b c : Block W) : Prop :=
  c.rkv = b.rkv ∧ c.rsa_p = b.rsa_p ∧ c.rsa_q = b.rsa_q ∧ c.rsa_e = b.rsa_e ∧ c.rsa_n = b.rsa_n ∧
  c.rsa_phi = b.rsa_phi ∧ c.rsa_d = b.rsa_d

/-- The invariants of R34, line by line. -/
structure Inv {W : Width} (b : Block W) : Prop where
  notBoth : ¬ (b.busy = true ∧ b.done = true)
  affNone : b.akv = false → AffZero b
  affKey : b.akv = true → AffKeyOk b
  rsaNone : b.rkv = false → RsaZero b
  rsaKey : b.rkv = true → RsaKeyOk b
  errRange : b.err.toNat ≤ 7

/-- `Fresh(s)` (R197): the block is in the reset state of R33; the width and the host's program are any. -/
def Fresh (s : State) : Prop := s.block = Block.reset

/-- `Reachable(s)` (R197): reached from the reset state, at any width, with any host program and any latency, by
host accesses, completion steps and resets.
DEDUCED (log 11): the host's program is no state of the block (R20, R27), so a state stays reachable when its host is
given another one, at any point; R197 does not say it in words. -/
inductive Reachable : State → Prop where
  | fresh {s : State} : Fresh s → Reachable s
  | step {s t : State} : Reachable s → Machine.step s = .next t → Reachable t
  | rehost {s : State} (prog : List (HostAction s.W)) (index : Nat) (reads : List (HostRead s.W)) :
      Reachable s → Reachable { s with prog := prog, index := index, reads := reads }

/-- `Ready(s)` (R197): nothing in flight. -/
def Ready (s : State) : Prop := Reachable s ∧ s.block.busy = false

/-- `Clean(s)` (R197): no host fault recorded so far. -/
def Clean (s : State) : Prop := s.block.ovr = false

/-- `AffKeyed(s)` (R197). -/
def AffKeyed (s : State) : Prop := s.block.akv = true

/-- `RsaKeyed(s)` (R197). -/
def RsaKeyed (s : State) : Prop := s.block.rkv = true

/-- The run of the host's program is over (R183). -/
def RunOver (s : State) : Prop := s.prog.length ≤ s.index ∧ s.block.busy = false

/-- No reset is left in the host's list: the executions R32 speaks of, without a reset between an
acceptance and its completion step (R181). -/
def NoResetAhead (s : State) : Prop := ∀ j, s.index ≤ j → s.prog[j]? ≠ some .reset

/-- A block untouched since reset (R16): not busy and not done only before the first acceptance, so no
command has left a trace. -/
def UntouchedIfIdle {W : Width} (b : Block W) : Prop :=
  b.busy = false → b.done = false →
    b.cmd = 0 ∧ b.res = 0 ∧ b.err = 0 ∧ b.akv = false ∧ b.rkv = false ∧ b.ovr = false

end Sys2Proof.Safety
end

