-- ==== Sys2Proof/Certificates/Slice0/Obligations.lean ====
section
/-! DEFINITION. Obligations of the model: statements from the numbered rules of spec/. A completion step is
stated as an equation `exec i s = .next (s.withBlock { s.block with … })`, which is its result, its completion
and its frame at once: every register, flag and field not named keeps its value. There is no memory (R40).
Every statement holds for every width `W` (R27): `s.W` is any width, and so is every `W` quantified over; only
the opcode table's words are those of `W = 32` (R61). Values are stated through `toNat`, so that a truncated
result would refute them (R88). Each command's statement begins with its command word, which its rule gives. -/

open Sys2Proof Sys2Proof.Machine Sys2Proof.Safety

/-! ### Reset and the invariants -/

/-- R33: after reset, at any width, every register of R10 reads 0, field by field. -/
def Obligations.ResetReadsZeroEverywhere : Prop :=
  ∀ W : Width,
    (∀ i : RegIndex, (State.resetAt W).block.regRead i = 0) ∧
    (State.resetAt W).block.busy = false ∧ (State.resetAt W).block.done = false ∧
    (State.resetAt W).block.akv = false ∧ (State.resetAt W).block.rkv = false ∧
    (State.resetAt W).block.ovr = false ∧ (State.resetAt W).block.err = 0

/-- R180, R181: a reset takes the block to the all-zero state from any state, also with a command in flight.
That the host's list goes on at its next action is the model's (log 5). -/
def Obligations.ResetEventZeroesTheBlock : Prop :=
  ∀ s : State, s.engineTurn = false → s.prog[s.index]? = some .reset →
    ∃ w, step s = .next { s with block := (State.resetAt s.W).block, index := s.index + 1, wait := w }

/-- R34: the invariants hold at reset, at any width. -/
def Obligations.InvariantsHoldAtReset : Prop := ∀ W : Width, Inv (State.resetAt W).block

/-- R34: every step keeps the invariants. -/
def Obligations.StepKeepsInvariants : Prop :=
  ∀ s t : State, Inv s.block → step s = .next t → Inv t.block

/-- R197: every reachable state, at any width, under any host program and any latency, satisfies the invariants
of R34. That a state stays reachable when its host is given another program, at any point, is the model's reading
(log 11). -/
def Obligations.ReachableStatesSatisfyInvariants : Prop :=
  ∀ s : State, Reachable s → Inv s.block

/-- R16: BUSY and DONE are both 0 only between reset and the first acceptance. As an invariant of the step:
a block that is neither busy nor done shows no trace of any command. -/
def Obligations.IdleBlockIsUntouched : Prop :=
  (∀ W : Width, UntouchedIfIdle (State.resetAt W).block) ∧
  ∀ s t : State, UntouchedIfIdle s.block → step s = .next t → UntouchedIfIdle t.block

/-- 93, closing words of Part 1: no behaviour of the block is stuck. In a state whose run is over (BUSY 0 and the
host's list exhausted) nothing can move (R7, R183), and that the step answers a next state there is the model's
(log 6). -/
def Obligations.NoStepStops : Prop := ∀ s : State, ∃ t : State, step s = .next t

/-- R27: the width and the host program are parameters of the step and no state: no step changes them. That they
are carried in State, where a step could, is the model's (logs 1 and 3). -/
def Obligations.ParametersAreFixed : Prop :=
  ∀ s t : State, step s = .next t →
    ∃ (b : Block s.W) (ix : Nat) (rd : List (HostRead s.W)) (w d : Nat),
      t = { s with block := b, index := ix, reads := rd, wait := w, draws := d }

/-! ### Encoding -/

/-- R61, R66: some command words, written out from the spec's table for the reference width 32. -/
def Obligations.SpecWordsDecode : Prop :=
  decode (0x00000001 : Word Config.refWidth) = .ok .gcd ∧
  decode (0x00000003 : Word Config.refWidth) = .ok .modinv ∧
  decode (0x00000010 : Word Config.refWidth) = .ok .affKey ∧
  decode (0x00000014 : Word Config.refWidth) = .ok .affDecc ∧
  decode (0x0000001F : Word Config.refWidth) = .ok .affDrop ∧
  decode (0x00000020 : Word Config.refWidth) = .ok .rsaKey ∧
  decode (0x00000022 : Word Config.refWidth) = .ok .rsaDec ∧
  decode (0x0000002F : Word Config.refWidth) = .ok .rsaDrop

/-- R60, R61, R66: decode and encode agree, in both directions, at every width, for every word and every
command; each word has one meaning, and the encoder's words are the only legal ones. -/
def Obligations.DecodeIsInverseOfEncode : Prop :=
  ∀ (W : Width) (w : Word W) (i : Instr), decode w = .ok i ↔ w = encode i

/-- R66, R67: at every width, every word that is not one of the fourteen is illegal; the field ZERO is looked at
first. -/
def Obligations.AllOtherWordsAreIllegal : Prop :=
  ∀ (W : Width) (w : Word W),
    (decode w = .error .zeroField ↔ 2 ^ 8 ≤ w.toNat) ∧
    (decode w = .error .opcode ↔ w.toNat < 2 ^ 8 ∧ w.toNat ∉
      [0x01, 0x02, 0x03, 0x04, 0x10, 0x11, 0x12, 0x13, 0x14, 0x1F, 0x20, 0x21, 0x22, 0x2F])

/-! ### Group 0 -/

/-- R81, R82: GCD of any two operands. -/
def Obligations.GcdGivesGreatestCommonDivisor : Prop :=
  (∀ W : Width, decode (0x01 : Word W) = .ok .gcd) ∧
  ∀ s : State, ∃ v : Word s.W, v.toNat = Nat.gcd s.block.op0.toNat s.block.op1.toNat ∧
    exec .gcd s = .next (s.withBlock { s.block with res := v, err := 0, busy := false, done := true })

/-- R83, R84: ISPRIME of any operand is exact. -/
def Obligations.IsprimeDecidesPrimality : Prop :=
  (∀ W : Width, decode (0x02 : Word W) = .ok .isprime) ∧
  ∀ s : State,
    (Nat.Prime s.block.op0.toNat →
      exec .isprime s = .next (s.withBlock { s.block with res := 1, err := 0, busy := false, done := true })) ∧
    (¬ Nat.Prime s.block.op0.toNat →
      exec .isprime s = .next (s.withBlock { s.block with res := 0, err := 0, busy := false, done := true }))

/-- R86, with R85's definition of the inverse: MODINV gives the `x` in `[1, m-1]` with `(a*x) mod m = 1`, and
fails with NO_INVERSE where there is none. -/
def Obligations.ModinvGivesTheInverseOrFails : Prop :=
  (∀ W : Width, decode (0x03 : Word W) = .ok .modinv) ∧
  ∀ s : State,
    (∀ x : Nat, 1 ≤ x → x ≤ s.block.op1.toNat - 1 → s.block.op0.toNat * x % s.block.op1.toNat = 1 →
      ∃ v : Word s.W, v.toNat = x ∧
        exec .modinv s = .next (s.withBlock { s.block with res := v, err := 0, busy := false, done := true })) ∧
    ((∀ x : Nat, 1 ≤ x → x ≤ s.block.op1.toNat - 1 → s.block.op0.toNat * x % s.block.op1.toNat ≠ 1) →
      exec .modinv s = .next (s.withBlock { s.block with res := 0, err := 2, busy := false, done := true }))

/-- R85 (b), (c): MODINV succeeds exactly where the modulus is at least 2 and coprime to `a`; at a modulus of 0
or 1 it fails for every `a`. -/
def Obligations.ModinvSucceedsExactlyOnCoprime : Prop :=
  ∀ s : State,
    (2 ≤ s.block.op1.toNat → Nat.gcd s.block.op0.toNat s.block.op1.toNat = 1 →
      ∃ v : Word s.W, 1 ≤ v.toNat ∧ v.toNat ≤ s.block.op1.toNat - 1 ∧
        s.block.op0.toNat * v.toNat % s.block.op1.toNat = 1 ∧
        exec .modinv s = .next (s.withBlock { s.block with res := v, err := 0, busy := false, done := true })) ∧
    (s.block.op1.toNat ≤ 1 ∨ Nat.gcd s.block.op0.toNat s.block.op1.toNat ≠ 1 →
      exec .modinv s = .next (s.withBlock { s.block with res := 0, err := 2, busy := false, done := true }))

/-- R89, with R87's result: MODPOW is the power modulo the modulus, 1 for exponent 0, also at modulus 1; modulus
0 fails with DIVZERO whatever the other operands are. -/
def Obligations.ModpowGivesThePowerOrDivzero : Prop :=
  (∀ W : Width, decode (0x04 : Word W) = .ok .modpow) ∧
  ∀ s : State,
    (s.block.op2 = 0 →
      exec .modpow s = .next (s.withBlock { s.block with res := 0, err := 6, busy := false, done := true })) ∧
    (s.block.op2 ≠ 0 →
      ∃ v : Word s.W,
        (s.block.op1 = 0 → v.toNat = 1) ∧
        (s.block.op1 ≠ 0 → v.toNat = s.block.op0.toNat ^ s.block.op1.toNat % s.block.op2.toNat) ∧
        exec .modpow s = .next (s.withBlock { s.block with res := v, err := 0, busy := false, done := true }))

/-! ### Group 1 -/

/-- R100: AFF.KEY accepts exactly the `a` coprime to 26, stores `a` and `b` unreduced and the inverse in
`[1, 25]`; any other `a` fails with INVALID_KEY and leaves no key. -/
def Obligations.AffKeyStoresKeyOrDropsIt : Prop :=
  (∀ W : Width, decode (0x10 : Word W) = .ok .affKey) ∧
  ∀ s : State,
    (Nat.gcd s.block.op0.toNat 26 = 1 →
      ∃ v : Word s.W, 1 ≤ v.toNat ∧ v.toNat ≤ 25 ∧ s.block.op0.toNat * v.toNat % 26 = 1 ∧
        exec .affKey s = .next (s.withBlock { s.block with
          aff_a := s.block.op0, aff_b := s.block.op1, aff_ainv := v, akv := true,
          res := v, err := 0, busy := false, done := true })) ∧
    (Nat.gcd s.block.op0.toNat 26 ≠ 1 →
      exec .affKey s = .next (s.withBlock { s.block with
        aff_a := 0, aff_b := 0, aff_ainv := 0, akv := false,
        res := 0, err := 1, busy := false, done := true }))

/-- R110: the inverses of the twelve valid keys; for `a ≥ 26` that of `a mod 26`; every other `a` is invalid. -/
def Obligations.AffKeyInverseTable : Prop :=
  ∀ s : State,
    (∀ x y : Nat, (x, y) ∈ [(1, 1), (3, 9), (5, 21), (7, 15), (9, 3), (11, 19), (15, 7), (17, 23), (19, 11),
        (21, 5), (23, 17), (25, 25)] → s.block.op0.toNat % 26 = x →
      ∃ t : State, exec .affKey s = .next t ∧ t.block.aff_ainv.toNat = y ∧
        t.block.akv = true ∧ t.block.err = 0) ∧
    (s.block.op0.toNat % 26 ∉ [1, 3, 5, 7, 9, 11, 15, 17, 19, 21, 23, 25] →
      ∃ t : State, exec .affKey s = .next t ∧ t.block.akv = false ∧ t.block.err = 1)

/-- R101, R103, R162: AFF.ENC, its two errors in their order and its result. -/
def Obligations.AffEncTransformsPosition : Prop :=
  (∀ W : Width, decode (0x11 : Word W) = .ok .affEnc) ∧
  ∀ s : State,
    (s.block.akv = false →
      exec .affEnc s = .next (s.withBlock { s.block with res := 0, err := 3, busy := false, done := true })) ∧
    (s.block.akv = true → 26 ≤ s.block.op0.toNat →
      exec .affEnc s = .next (s.withBlock { s.block with res := 0, err := 4, busy := false, done := true })) ∧
    (s.block.akv = true → s.block.op0.toNat ≤ 25 →
      ∃ v : Word s.W, v.toNat = (s.block.aff_a.toNat * s.block.op0.toNat + s.block.aff_b.toNat) % 26 ∧
        exec .affEnc s = .next (s.withBlock { s.block with res := v, err := 0, busy := false, done := true }))

/-- R102, R104, R162: AFF.DEC; the difference is an integer and the remainder the floor remainder. -/
def Obligations.AffDecInvertsPosition : Prop :=
  (∀ W : Width, decode (0x12 : Word W) = .ok .affDec) ∧
  ∀ s : State,
    (s.block.akv = false →
      exec .affDec s = .next (s.withBlock { s.block with res := 0, err := 3, busy := false, done := true })) ∧
    (s.block.akv = true → 26 ≤ s.block.op0.toNat →
      exec .affDec s = .next (s.withBlock { s.block with res := 0, err := 4, busy := false, done := true })) ∧
    (s.block.akv = true → s.block.op0.toNat ≤ 25 →
      ∃ v : Word s.W,
        (v.toNat : Int) = ((s.block.aff_ainv.toNat : Int) *
          ((s.block.op0.toNat : Int) - (s.block.aff_b.toNat : Int))).fmod 26 ∧
        exec .affDec s = .next (s.withBlock { s.block with res := v, err := 0, busy := false, done := true }))

/-- R105, R106: AFF.ENCC: letters of both cases give a lower-case letter, every other code passes through. -/
def Obligations.AffEnccHandlesCharacters : Prop :=
  (∀ W : Width, decode (0x13 : Word W) = .ok .affEncc) ∧
  ∀ s : State,
    (s.block.akv = false →
      exec .affEncc s = .next (s.withBlock { s.block with res := 0, err := 3, busy := false, done := true })) ∧
    (s.block.akv = true → 0x41 ≤ s.block.op0.toNat → s.block.op0.toNat ≤ 0x5A →
      ∃ v : Word s.W, v.toNat = 0x61 +
        (s.block.aff_a.toNat * (s.block.op0.toNat - 0x41) + s.block.aff_b.toNat) % 26 ∧
        exec .affEncc s =
          .next (s.withBlock { s.block with res := v, err := 0, busy := false, done := true })) ∧
    (s.block.akv = true → 0x61 ≤ s.block.op0.toNat → s.block.op0.toNat ≤ 0x7A →
      ∃ v : Word s.W, v.toNat = 0x61 +
        (s.block.aff_a.toNat * (s.block.op0.toNat - 0x61) + s.block.aff_b.toNat) % 26 ∧
        exec .affEncc s =
          .next (s.withBlock { s.block with res := v, err := 0, busy := false, done := true })) ∧
    (s.block.akv = true → (s.block.op0.toNat < 0x41 ∨
      (0x5A < s.block.op0.toNat ∧ s.block.op0.toNat < 0x61) ∨ 0x7A < s.block.op0.toNat) →
      exec .affEncc s =
        .next (s.withBlock { s.block with res := s.block.op0, err := 0, busy := false, done := true }))

/-- R105, R107: AFF.DECC. -/
def Obligations.AffDeccHandlesCharacters : Prop :=
  (∀ W : Width, decode (0x14 : Word W) = .ok .affDecc) ∧
  ∀ s : State,
    (s.block.akv = false →
      exec .affDecc s = .next (s.withBlock { s.block with res := 0, err := 3, busy := false, done := true })) ∧
    (s.block.akv = true → 0x41 ≤ s.block.op0.toNat → s.block.op0.toNat ≤ 0x5A →
      ∃ v : Word s.W,
        (v.toNat : Int) = 0x61 + ((s.block.aff_ainv.toNat : Int) *
          (((s.block.op0.toNat - 0x41 : Nat) : Int) - (s.block.aff_b.toNat : Int))).fmod 26 ∧
        exec .affDecc s =
          .next (s.withBlock { s.block with res := v, err := 0, busy := false, done := true })) ∧
    (s.block.akv = true → 0x61 ≤ s.block.op0.toNat → s.block.op0.toNat ≤ 0x7A →
      ∃ v : Word s.W,
        (v.toNat : Int) = 0x61 + ((s.block.aff_ainv.toNat : Int) *
          (((s.block.op0.toNat - 0x61 : Nat) : Int) - (s.block.aff_b.toNat : Int))).fmod 26 ∧
        exec .affDecc s =
          .next (s.withBlock { s.block with res := v, err := 0, busy := false, done := true })) ∧
    (s.block.akv = true → (s.block.op0.toNat < 0x41 ∨
      (0x5A < s.block.op0.toNat ∧ s.block.op0.toNat < 0x61) ∨ 0x7A < s.block.op0.toNat) →
      exec .affDecc s =
        .next (s.withBlock { s.block with res := s.block.op0, err := 0, busy := false, done := true }))

/-- R140: AFF.DROP clears the affine store and nothing else, also with no key. -/
def Obligations.AffDropClearsAffineStore : Prop :=
  (∀ W : Width, decode (0x1F : Word W) = .ok .affDrop) ∧
  ∀ s : State, exec .affDrop s = .next (s.withBlock { s.block with
    aff_a := 0, aff_b := 0, aff_ainv := 0, akv := false, res := 0, err := 0, busy := false, done := true })

/-- R108: for every valid affine key and every position, decrypting the encryption gives the position back. -/
def Obligations.AffinePositionRoundTrip : Prop :=
  ∀ (s : State) (x : Word s.W), Inv s.block → s.block.akv = true → x.toNat ≤ 25 →
    ∃ t u : State, exec .affEnc (s.withBlock { s.block with op0 := x }) = .next t ∧ t.block.err = 0 ∧
      exec .affDec (t.withBlock { t.block with op0 := t.block.res }) = .next u ∧ u.block.err = 0 ∧
      u.block.res.toNat = x.toNat

/-- R108: for every valid affine key and every character code, decrypting the encryption gives the code back,
an upper-case letter as its lower-case form. -/
def Obligations.AffineCharacterRoundTrip : Prop :=
  ∀ (s : State) (ch : Word s.W), Inv s.block → s.block.akv = true →
    ∃ t u : State, exec .affEncc (s.withBlock { s.block with op0 := ch }) = .next t ∧ t.block.err = 0 ∧
      exec .affDecc (t.withBlock { t.block with op0 := t.block.res }) = .next u ∧ u.block.err = 0 ∧
      u.block.res.toNat = if 0x41 ≤ ch.toNat ∧ ch.toNat ≤ 0x5A then ch.toNat + 0x20 else ch.toNat

/-! ### Group 2 -/

/-- R120: RSA.KEY. Two primes, equal or not (R121), with `e` coprime to `phi`, a modulus that fits and not both
2 make a key: `n`, `phi` and the inverse of `e` are stored. Every other triple fails with the first code that
applies, INVALID_KEY, RANGE, NO_INVERSE, and leaves no key. -/
def Obligations.RsaKeyStoresKeyOrDropsIt : Prop :=
  (∀ W : Width, decode (0x20 : Word W) = .ok .rsaKey) ∧
  ∀ s : State,
    (¬ Nat.Prime s.block.op0.toNat ∨ ¬ Nat.Prime s.block.op1.toNat ∨
        Nat.gcd s.block.op2.toNat ((s.block.op0.toNat - 1) * (s.block.op1.toNat - 1)) ≠ 1 →
      exec .rsaKey s = .next (s.withBlock { s.block with
        rsa_p := 0, rsa_q := 0, rsa_e := 0, rsa_n := 0, rsa_phi := 0, rsa_d := 0, rkv := false,
        res := 0, err := 1, busy := false, done := true })) ∧
    (Nat.Prime s.block.op0.toNat → Nat.Prime s.block.op1.toNat →
        Nat.gcd s.block.op2.toNat ((s.block.op0.toNat - 1) * (s.block.op1.toNat - 1)) = 1 →
        2 ^ s.W.bits ≤ s.block.op0.toNat * s.block.op1.toNat →
      exec .rsaKey s = .next (s.withBlock { s.block with
        rsa_p := 0, rsa_q := 0, rsa_e := 0, rsa_n := 0, rsa_phi := 0, rsa_d := 0, rkv := false,
        res := 0, err := 5, busy := false, done := true })) ∧
    (s.block.op0.toNat = 2 → s.block.op1.toNat = 2 →
      exec .rsaKey s = .next (s.withBlock { s.block with
        rsa_p := 0, rsa_q := 0, rsa_e := 0, rsa_n := 0, rsa_phi := 0, rsa_d := 0, rkv := false,
        res := 0, err := 2, busy := false, done := true })) ∧
    (Nat.Prime s.block.op0.toNat → Nat.Prime s.block.op1.toNat →
        Nat.gcd s.block.op2.toNat ((s.block.op0.toNat - 1) * (s.block.op1.toNat - 1)) = 1 →
        s.block.op0.toNat * s.block.op1.toNat < 2 ^ s.W.bits →
          ¬ (s.block.op0.toNat = 2 ∧ s.block.op1.toNat = 2) →
      ∃ n phi d : Word s.W, n.toNat = s.block.op0.toNat * s.block.op1.toNat ∧
        phi.toNat = (s.block.op0.toNat - 1) * (s.block.op1.toNat - 1) ∧
        1 ≤ d.toNat ∧ d.toNat ≤ phi.toNat - 1 ∧ s.block.op2.toNat * d.toNat % phi.toNat = 1 ∧
        exec .rsaKey s = .next (s.withBlock { s.block with
          rsa_p := s.block.op0, rsa_q := s.block.op1, rsa_e := s.block.op2, rsa_n := n, rsa_phi := phi, rsa_d := d,
            rkv := true,
          res := d, err := 0, busy := false, done := true }))

/-- R122, R126, R162: RSA.ENC, its two errors in their order; with a valid key and a message of at most 255,
also one not below the modulus, the result is `m^e mod n`. -/
def Obligations.RsaEncGivesThePower : Prop :=
  (∀ W : Width, decode (0x21 : Word W) = .ok .rsaEnc) ∧
  ∀ s : State, Inv s.block →
    (s.block.rkv = false →
      exec .rsaEnc s = .next (s.withBlock { s.block with res := 0, err := 3, busy := false, done := true })) ∧
    (s.block.rkv = true → 255 < s.block.op0.toNat →
      exec .rsaEnc s = .next (s.withBlock { s.block with res := 0, err := 4, busy := false, done := true })) ∧
    (s.block.rkv = true → s.block.op0.toNat ≤ 255 →
      ∃ v : Word s.W, v.toNat = s.block.op0.toNat ^ s.block.rsa_e.toNat % s.block.rsa_n.toNat ∧
        exec .rsaEnc s = .next (s.withBlock { s.block with res := v, err := 0, busy := false, done := true }))

/-- R124, R127: RSA.DEC: the whole value `c^d mod n`, for every operand, not cut to 8 bits. -/
def Obligations.RsaDecGivesTheWholePower : Prop :=
  (∀ W : Width, decode (0x22 : Word W) = .ok .rsaDec) ∧
  ∀ s : State, Inv s.block →
    (s.block.rkv = false →
      exec .rsaDec s = .next (s.withBlock { s.block with res := 0, err := 3, busy := false, done := true })) ∧
    (s.block.rkv = true →
      ∃ v : Word s.W, v.toNat = s.block.op0.toNat ^ s.block.rsa_d.toNat % s.block.rsa_n.toNat ∧
        exec .rsaDec s = .next (s.withBlock { s.block with res := v, err := 0, busy := false, done := true }))

/-- R141: RSA.DROP clears the RSA store and nothing else, also with no key. -/
def Obligations.RsaDropClearsRsaStore : Prop :=
  (∀ W : Width, decode (0x2F : Word W) = .ok .rsaDrop) ∧
  ∀ s : State, exec .rsaDrop s = .next (s.withBlock { s.block with
    rsa_p := 0, rsa_q := 0, rsa_e := 0, rsa_n := 0, rsa_phi := 0, rsa_d := 0, rkv := false,
    res := 0, err := 0, busy := false, done := true })

/-- R125, R126: with a valid key of two different primes and any message of at most 255, RSA.DEC of RSA.ENC
gives the message modulo `n`, which is the message itself where it is below `n`. -/
def Obligations.RsaRoundTrip : Prop :=
  ∀ (s : State) (m : Word s.W), Inv s.block → s.block.rkv = true → s.block.rsa_p ≠ s.block.rsa_q →
    m.toNat ≤ 255 →
    ∃ t u : State, exec .rsaEnc (s.withBlock { s.block with op0 := m }) = .next t ∧ t.block.err = 0 ∧
      exec .rsaDec (t.withBlock { t.block with op0 := t.block.res }) = .next u ∧ u.block.err = 0 ∧
      u.block.res.toNat = m.toNat % s.block.rsa_n.toNat ∧
      (m.toNat < s.block.rsa_n.toNat → u.block.res.toNat = m.toNat)

/-! ### Completion steps, all commands -/

/-- R31, R23: what no completion step touches, for every command: CMD, the operands, OVR, every key store but the
one the command writes, and everything outside the block. -/
def Obligations.CompletionFrame : Prop :=
  ∀ (i : Instr) (s t : State), exec i s = .next t →
    ∃ b : Block s.W, t = s.withBlock b ∧ b.busy = false ∧ b.done = true ∧
      b.cmd = s.block.cmd ∧ b.op0 = s.block.op0 ∧ b.op1 = s.block.op1 ∧ b.op2 = s.block.op2 ∧
      b.ovr = s.block.ovr ∧
      (i ≠ .affKey → i ≠ .affDrop → SameAffStore s.block b) ∧
      (i ≠ .rsaKey → i ≠ .rsaDrop → SameRsaStore s.block b)

/-- R160, R161: a command that ends in an error leaves RES 0 and every key store as it was, but for a KEY
command, which leaves its own store empty. -/
def Obligations.ErrorLeavesNoPartialResult : Prop :=
  ∀ (i : Instr) (s t : State), exec i s = .next t → t.block.err ≠ 0 →
    ∃ b : Block s.W, t = s.withBlock b ∧ b.res = 0 ∧
      (i = .affKey → b.akv = false ∧ AffZero b) ∧ (i ≠ .affKey → SameAffStore s.block b) ∧
      (i = .rsaKey → b.rkv = false ∧ RsaZero b) ∧ (i ≠ .rsaKey → SameRsaStore s.block b)

/-- R150: which codes each command can complete with. -/
def Obligations.ErrorCodesOfEachCommand : Prop :=
  ∀ (i : Instr) (s t : State), exec i s = .next t →
    ((i = .gcd ∨ i = .isprime ∨ i = .affDrop ∨ i = .rsaDrop) → t.block.err = 0) ∧
    (i = .modinv → t.block.err = 0 ∨ t.block.err = 2) ∧
    (i = .modpow → t.block.err = 0 ∨ t.block.err = 6) ∧
    (i = .affKey → t.block.err = 0 ∨ t.block.err = 1) ∧
    ((i = .affEnc ∨ i = .affDec ∨ i = .rsaEnc) → t.block.err = 0 ∨ t.block.err = 3 ∨ t.block.err = 4) ∧
    ((i = .affEncc ∨ i = .affDecc ∨ i = .rsaDec) → t.block.err = 0 ∨ t.block.err = 3) ∧
    (i = .rsaKey → t.block.err = 0 ∨ t.block.err = 1 ∨ t.block.err = 2 ∨ t.block.err = 5)

/-- R17: after AFF.KEY and RSA.KEY the valid flag is 1 on success and 0 on failure. -/
def Obligations.ValidFlagFollowsKeyCommand : Prop :=
  ∀ s t : State,
    (exec .affKey s = .next t → (t.block.akv = true ↔ t.block.err = 0)) ∧
    (exec .rsaKey s = .next t → (t.block.rkv = true ↔ t.block.err = 0))

/-! ### The engine's step -/

/-- R31, R66: where the engine's step is next and the stored word decodes to a command, the step is that
command's completion step. When the engine's step is next is the model's reading of R32 and R183 (logs 2, 4). -/
def Obligations.StepRunsTheDecodedCommand : Prop :=
  ∀ (s : State) (i : Instr), s.block.busy = true → (s.wait = 0 ∨ s.prog.length ≤ s.index) →
    decode s.block.cmd = .ok i → step s = exec i s

/-- R30, R31: an accepted command word whose completion step is next runs its command, at every width, and the
opcode table's word is read as the command (log 3 for the form). -/
def Obligations.AcceptedWordRunsItsCommand : Prop :=
  ∀ (s : State) (i : Instr),
    decodeTableWord Config.refWidth.bits (encode i : Word Config.refWidth).toNat = some i ∧
    step (s.withFetchWord s.W.bits (encode i : Word s.W).toNat)
      = exec i { s with block := { s.block with cmd := encode i, busy := true, done := false }, wait := 0 }

/-- R66, R157, R160: a word that is none of the fourteen completes with ILLEGAL, keys untouched. -/
def Obligations.IllegalWordCompletesWithIllegal : Prop :=
  ∀ s : State, s.block.busy = true → (s.wait = 0 ∨ s.prog.length ≤ s.index) →
    s.block.cmd.toNat ∉ [0x01, 0x02, 0x03, 0x04, 0x10, 0x11, 0x12, 0x13, 0x14, 0x1F, 0x20, 0x21, 0x22, 0x2F] →
    step s = .next (s.withBlock { s.block with res := 0, err := 7, busy := false, done := true })

/-- R32: every accepted command completes: under any latency, after finitely many host accesses without a
reset, the engine's step is next, and by R46 the block is still what it was, but for OVR. When it is the engine's
turn is the model's reading of R32 and R183 (logs 2, 4). -/
def Obligations.AcceptedCommandCompletes : Prop :=
  ∀ s : State, s.block.busy = true → NoResetAhead s →
    ∃ (k : Nat) (o : Bool) (ix : Nat) (rd : List (HostRead s.W)) (w d : Nat) (t : State),
      k ≤ s.wait ∧
        t = { s with block := { s.block with ovr := o }, index := ix, reads := rd, wait := w, draws := d } ∧
      core.run k s = .next t ∧ t.engineTurn = true

/-- R46, R32: a command's result is a function of the state at its acceptance alone: whatever the latency and
whatever the host does meanwhile (no reset), the block ends with what an immediate completion step gives, but for
OVR. When it is the engine's turn is the model's reading of R32 and R183 (logs 2, 4). -/
def Obligations.ResultIndependentOfLatency : Prop :=
  ∀ s : State, s.block.busy = true → NoResetAhead s →
    ∃ (k : Nat) (c : Block s.W) (o : Bool) (ix : Nat) (rd : List (HostRead s.W)) (w d : Nat),
      k ≤ s.wait ∧ completionStep s = .next (s.withBlock c) ∧ c.busy = false ∧ c.done = true ∧
      core.run (k + 1) s =
        .next { s with block := { c with ovr := o }, index := ix, reads := rd, wait := w, draws := d }

/-! ### The host's accesses -/

/-- R43: what a read of each index returns; index 0x1 is the number the flags and the error code make. -/
def Obligations.RegReadReturnsEachRegister : Prop :=
  ∀ (W : Width) (b : Block W),
    b.regRead 0x0 = b.cmd ∧
    (b.regRead 0x1).toNat = 256 * b.err.toNat + 16 * b.ovr.toNat + 8 * b.rkv.toNat + 4 * b.akv.toNat
      + 2 * b.done.toNat + b.busy.toNat ∧
    b.regRead 0x2 = b.op0 ∧ b.regRead 0x3 = b.op1 ∧ b.regRead 0x4 = b.op2 ∧ b.regRead 0x5 = b.res ∧
    b.regRead 0x6 = b.aff_a ∧ b.regRead 0x7 = b.aff_b ∧ b.regRead 0x8 = b.aff_ainv ∧
    b.regRead 0x9 = b.rsa_p ∧ b.regRead 0xA = b.rsa_q ∧ b.regRead 0xB = b.rsa_e ∧
    b.regRead 0xC = b.rsa_n ∧ b.regRead 0xD = b.rsa_phi ∧ b.regRead 0xE = b.rsa_d ∧ b.regRead 0xF = 0

/-- R30, R44: what a write of each index does, busy or not, and that it does nothing else. -/
def Obligations.RegWriteDoesWhatEachIndexSays : Prop :=
  ∀ (W : Width) (b : Block W) (v : Word W),
    (b.busy = false →
      b.regWrite 0x0 v = { b with cmd := v, busy := true, done := false } ∧
      b.regWrite 0x2 v = { b with op0 := v } ∧ b.regWrite 0x3 v = { b with op1 := v } ∧
      b.regWrite 0x4 v = { b with op2 := v }) ∧
    (b.busy = true → ∀ i : RegIndex, (i = 0x0 ∨ i = 0x2 ∨ i = 0x3 ∨ i = 0x4) →
      b.regWrite i v = { b with ovr := true }) ∧
    (∀ i : RegIndex, (i = 0x1 ∨ 5 ≤ i.toNat) → b.regWrite i v = b)

/-- R14: the fields of STATUS, bit by bit, and its reserved bits. -/
def Obligations.StatusWordFields : Prop :=
  ∀ (W : Width) (b : Block W),
    b.statusWord.getLsbD 0 = b.busy ∧ b.statusWord.getLsbD 1 = b.done ∧ b.statusWord.getLsbD 2 = b.akv ∧
    b.statusWord.getLsbD 3 = b.rkv ∧ b.statusWord.getLsbD 4 = b.ovr ∧
    (∀ k : Nat, 5 ≤ k → k ≤ 7 → b.statusWord.getLsbD k = false) ∧
    (∀ k : Nat, k < 4 → b.statusWord.getLsbD (8 + k) = b.err.getLsbD k) ∧
    (∀ k : Nat, 12 ≤ k → b.statusWord.getLsbD k = false)

/-- R43: a host read returns the register's value as it is and changes nothing of the block, whatever BUSY is.
The record of reads is the model's (log 3). -/
def Obligations.HostReadHasNoSideEffect : Prop :=
  ∀ (s : State) (i : RegIndex), s.engineTurn = false → s.prog[s.index]? = some (.read i) →
    ∃ w, step s = .next { s with
      reads := s.reads ++ [⟨i, s.block.regRead i⟩], index := s.index + 1, wait := w }

/-- R30: a host write to CMD when BUSY is 0 is an acceptance; every word is accepted. The latency drawn is
free (log 2). -/
def Obligations.CmdWriteIsAcceptance : Prop :=
  ∀ (s : State) (v : Word s.W), s.block.busy = false → s.prog[s.index]? = some (.write 0x0 v) →
    ∃ w d, step s = .next { s with
      block := { s.block with cmd := v, busy := true, done := false }, index := s.index + 1, wait := w, draws := d }

/-- R44: a host write to OP0, OP1 or OP2 when BUSY is 0 sets that register and has no other effect. -/
def Obligations.OperandWriteSetsTheRegister : Prop :=
  ∀ (s : State) (v : Word s.W), s.block.busy = false →
    (s.prog[s.index]? = some (.write 0x2 v) →
      step s = .next { s with block := { s.block with op0 := v }, index := s.index + 1 }) ∧
    (s.prog[s.index]? = some (.write 0x3 v) →
      step s = .next { s with block := { s.block with op1 := v }, index := s.index + 1 }) ∧
    (s.prog[s.index]? = some (.write 0x4 v) →
      step s = .next { s with block := { s.block with op2 := v }, index := s.index + 1 })

/-- R45: a host write to CMD or an operand while BUSY is 1 is dropped; its one effect is OVR. -/
def Obligations.BusyWriteIsDroppedAndRecorded : Prop :=
  ∀ (s : State) (i : RegIndex) (v : Word s.W), s.block.busy = true → s.engineTurn = false →
    (i = 0x0 ∨ i = 0x2 ∨ i = 0x3 ∨ i = 0x4) → s.prog[s.index]? = some (.write i v) →
    ∃ w, step s = .next { s with block := { s.block with ovr := true }, index := s.index + 1, wait := w }

/-- R44, R25: a host write to STATUS, RES, a key register or index 0xF has no effect on the block, whatever
BUSY is, and does not set OVR. -/
def Obligations.ReadOnlyWriteHasNoEffect : Prop :=
  ∀ (s : State) (i : RegIndex) (v : Word s.W), s.engineTurn = false → (i = 0x1 ∨ 5 ≤ i.toNat) →
    s.prog[s.index]? = some (.write i v) →
    ∃ w, step s = .next { s with index := s.index + 1, wait := w }

/-- R71: a WAIT line reads STATUS and is over exactly when the BUSY bit it read was 0. That each poll is kept
among the reads is the model's (log 3). -/
def Obligations.WaitPollsUntilNotBusy : Prop :=
  ∀ s : State, s.engineTurn = false → s.prog[s.index]? = some .wait →
    (s.block.busy = true → ∃ w, step s = .next { s with
      reads := s.reads ++ [⟨0x1, s.block.statusWord⟩], wait := w }) ∧
    (s.block.busy = false → step s = .next { s with
      reads := s.reads ++ [⟨0x1, s.block.statusWord⟩], index := s.index + 1 })

/-- R18: OVR is set only by a host write to CMD or an operand while BUSY is 1, and cleared only by reset. -/
def Obligations.OvrIsStickyAndHostOnly : Prop :=
  ∀ s t : State, step s = .next t →
    (s.block.ovr = true → t.block.ovr = false → s.engineTurn = false ∧ s.prog[s.index]? = some .reset) ∧
    (s.block.ovr = false → t.block.ovr = true → s.engineTurn = false ∧ s.block.busy = true ∧
      ∃ i v, s.prog[s.index]? = some (.write i v) ∧ (i = 0x0 ∨ i = 0x2 ∨ i = 0x3 ∨ i = 0x4))

/-- R23: a step that changes a key store is the completion step of one of that store's two commands, or a
reset; no host access reaches a key register. -/
def Obligations.OnlyKeyCommandsWriteKeys : Prop :=
  ∀ s t : State, step s = .next t →
    ∃ (b : Block s.W) (ix : Nat) (rd : List (HostRead s.W)) (w d : Nat),
      t = { s with block := b, index := ix, reads := rd, wait := w, draws := d } ∧
      (SameAffStore s.block b ∨
        (s.engineTurn = true ∧ (decode s.block.cmd = .ok .affKey ∨ decode s.block.cmd = .ok .affDrop)) ∨
        (s.engineTurn = false ∧ s.prog[s.index]? = some .reset)) ∧
      (SameRsaStore s.block b ∨
        (s.engineTurn = true ∧ (decode s.block.cmd = .ok .rsaKey ∨ decode s.block.cmd = .ok .rsaDrop)) ∨
        (s.engineTurn = false ∧ s.prog[s.index]? = some .reset))

/-- R183: once the host's list is exhausted and BUSY is 0 the state is final. That a step there answers the
same state is the model's (log 6). -/
def Obligations.RunOverStateIsFinal : Prop :=
  ∀ s : State, RunOver s → step s = .next s

/-- R123 (host software): the string of `m` has the value `m`, has at least 8 digits and exactly 8 when
`m ≤ 255`, and then its character `j` is bit `7 - j` of `m`. For `256 ≤ m` the string is longer than 8, and that
`parse` takes it at all is the model's choice (log 10). -/
def Obligations.MessageStringsCarryTheInteger : Prop :=
  ∀ m : Nat, parseMessage (formatMessage m) = m ∧ 8 ≤ (formatMessage m).length ∧
    (m ≤ 255 → (formatMessage m).length = 8 ∧
      ∀ j : Nat, j < 8 → (formatMessage m)[j]? = some (m.testBit (7 - j))) ∧
    (256 ≤ m → (formatMessage m).length = Nat.log2 m + 1)
end

