-- ==== Sys2Proof/Laws/Arith.lean ====
section
/-! SUPPORT. Laws of the pure functions: each is what its rule says it is, for every operand. -/

namespace Sys2Proof.Machine

theorem euclidLoop_eq_gcd (fuel a b : Nat) (h : b < fuel) : euclidLoop fuel a b = Nat.gcd a b := by
  induction fuel generalizing a b with
  | zero => omega
  | succ fuel ih =>
    by_cases hb : b = 0
    · simp [euclidLoop, hb]
    · have hlt : a % b < b := Nat.mod_lt a (by omega)
      rw [euclidLoop, if_neg hb, ih b (a % b) (by omega), Nat.gcd_comm a b, Nat.gcd_rec b a,
        Nat.gcd_comm b]

/-- R81: the Euclidean loop computes the greatest common divisor. -/
theorem euclidGcd_eq_gcd (a b : Nat) : euclidGcd a b = Nat.gcd a b :=
  euclidLoop_eq_gcd (b + 1) a b (by omega)

theorem floorSqrtLoop_spec (fuel n : Nat) (h : n ≤ fuel) :
    floorSqrtLoop fuel n * floorSqrtLoop fuel n ≤ n ∧
      n < (floorSqrtLoop fuel n + 1) * (floorSqrtLoop fuel n + 1) := by
  induction fuel generalizing n with
  | zero => simp [floorSqrtLoop]; omega
  | succ fuel ih =>
    by_cases hn : n = 0
    · simp [floorSqrtLoop, hn]
    · obtain ⟨hlo, hhi⟩ := ih (n / 4) (by omega)
      rw [floorSqrtLoop, if_neg hn]
      generalize floorSqrtLoop fuel (n / 4) = r at *
      have hdiv : 4 * (n / 4) ≤ n ∧ n < 4 * (n / 4) + 4 := by omega
      dsimp only
      split
      · rename_i hle
        exact ⟨hle, by nlinarith⟩
      · exact ⟨by nlinarith, by omega⟩

/-- R8: `floor_sqrt`. -/
theorem floorSqrt_eq_sqrt (n : Nat) : floorSqrt n = Nat.sqrt n := by
  obtain ⟨hlo, hhi⟩ := floorSqrtLoop_spec n n le_rfl
  exact Nat.eq_sqrt.2 ⟨hlo, hhi⟩

theorem noDivisor_iff (n top k : Nat) (h : k ≤ top) :
    noDivisor n top k = true ↔ ∀ d, top - k < d → d ≤ top → ¬ d ∣ n := by
  induction k with
  | zero => simp only [noDivisor, true_iff]; intro d h1 h2; omega
  | succ k ih =>
    rw [noDivisor]
    split
    · rename_i hmod
      simp only [Bool.false_eq_true, false_iff, not_forall, not_not]
      exact ⟨top - k, by omega, by omega, Nat.dvd_of_mod_eq_zero hmod⟩
    · rename_i hmod
      rw [ih (by omega)]
      constructor
      · intro hall d hlo hhi
        rcases Nat.lt_or_ge (top - k) d with hd | hd
        · exact hall d hd hhi
        · have : d = top - k := by omega
          subst this
          exact fun hdvd => hmod (Nat.mod_eq_zero_of_dvd hdvd)
      · exact fun hall d hlo hhi => hall d (by omega) hhi

/-- R83: the result is true exactly when `n` is a prime number. -/
theorem isPrime_iff_prime (n : Nat) : isPrime n = true ↔ Nat.Prime n := by
  rw [isPrime, floorSqrt_eq_sqrt, Bool.and_eq_true, decide_eq_true_eq,
    noDivisor_iff n _ _ (by omega), Nat.prime_def_le_sqrt]
  constructor
  · rintro ⟨hn, hall⟩
    have hs : 1 ≤ Nat.sqrt n := Nat.le_sqrt.2 (by omega)
    exact ⟨hn, fun d h2 hd => hall d (by omega) hd⟩
  · rintro ⟨hn, hall⟩
    exact ⟨hn, fun d hlo hd => hall d (by omega) hd⟩

theorem bezoutLoop_spec (a m : Int) (fuel r0 r1 : Nat) (t0 t1 : Int) (hf : r1 < fuel)
    (h0 : m ∣ r0 - t0 * a) (h1 : m ∣ r1 - t1 * a) :
    m ∣ (Nat.gcd r0 r1 : Int) - bezoutLoop fuel r0 r1 t0 t1 * a := by
  induction fuel generalizing r0 r1 t0 t1 with
  | zero => omega
  | succ fuel ih =>
    by_cases hr : r1 = 0
    · simpa [bezoutLoop, hr] using h0
    · have hlt : r0 % r1 < r1 := Nat.mod_lt r0 (by omega)
      have hg : Nat.gcd r0 r1 = Nat.gcd r1 (r0 % r1) := by
        rw [Nat.gcd_comm r0 r1, Nat.gcd_rec r1 r0, Nat.gcd_comm]
      rw [bezoutLoop, if_neg hr, hg]
      refine ih r1 (r0 % r1) t1 _ (by omega) h1 ?_
      have hdm : ((r0 % r1 : Nat) : Int) = r0 - (r0 / r1 : Nat) * r1 := by
        have := Nat.div_add_mod r0 r1
        have h' : (r1 : Int) * (r0 / r1 : Nat) + (r0 % r1 : Nat) = r0 := by exact_mod_cast this
        linarith
      rw [hdm]
      have : (r0 : Int) - (r0 / r1 : Nat) * r1 - (t0 - (r0 / r1 : Nat) * t1) * a
          = (r0 - t0 * a) - (r0 / r1 : Nat) * (r1 - t1 * a) := by ring
      rw [this]
      exact dvd_sub h0 (Dvd.dvd.mul_left h1 _)

/-- R85 (b): where the gcd is 1 the candidate passes R85's test. -/
theorem inverseCandidate_spec (a m : Nat) (hm : 2 ≤ m) (hg : Nat.gcd a m = 1) :
    1 ≤ inverseCandidate a m ∧ inverseCandidate a m ≤ m - 1 ∧ a * inverseCandidate a m % m = 1 := by
  have hspec := bezoutLoop_spec a m (m + 1) m (a % m) 0 1
    (Nat.lt_succ_of_lt (Nat.mod_lt a (by omega))) (by simp) (by
      have h : ((a % m : Nat) : Int) - 1 * a = -(m * (a / m : Nat)) := by
        have := Nat.div_add_mod a m
        have h' : (m : Int) * (a / m : Nat) + (a % m : Nat) = a := by exact_mod_cast this
        linarith
      rw [h]
      exact (dvd_mul_right _ _).neg_right)
  have hgcd : Nat.gcd m (a % m) = 1 := by rw [Nat.gcd_comm, ← Nat.gcd_rec, Nat.gcd_comm, hg]
  rw [hgcd] at hspec
  have hm0 : (0 : Int) < m := by omega
  set t := bezoutLoop (m + 1) m (a % m) 0 1
  have hx : (inverseCandidate a m : Int) = t % m :=
    Int.toNat_of_nonneg (Int.emod_nonneg t hm0.ne')
  have hlt : inverseCandidate a m < m := by
    have := Int.emod_lt_of_pos t hm0
    omega
  have hmod : a * inverseCandidate a m % m = 1 := by
    have hi : ((a * inverseCandidate a m % m : Nat) : Int) = (1 : Int) % m := by
      have hme : (a : Int) * t ≡ 1 [ZMOD m] := by
        rw [Int.modEq_iff_dvd, mul_comm]
        simpa using hspec
      push_cast
      rw [hx, Int.mul_emod, Int.emod_emod, ← Int.mul_emod]
      exact hme
    rw [Int.emod_eq_of_lt (by omega) (by omega)] at hi
    exact_mod_cast hi
  refine ⟨?_, by omega, hmod⟩
  by_contra h0
  have h00 : inverseCandidate a m = 0 := by omega
  rw [h00] at hmod
  simp at hmod

/-- R85 (a): there is at most one inverse in `[1, m-1]`. -/
theorem inverse_unique {a m x y : Nat} (hx : a * x % m = 1) (hy : a * y % m = 1)
    (hxm : x ≤ m - 1) (hym : y ≤ m - 1) (hm : 2 ≤ m) : x = y := by
  have h1 : a * x ≡ a * y [MOD m] := by rw [Nat.ModEq, hx, hy]
  have hco : Nat.Coprime m a := by
    have hd : Nat.gcd m a ∣ 1 := by
      rw [← hx]
      exact (Nat.dvd_mod_iff (Nat.gcd_dvd_left m a)).2
        (Dvd.dvd.mul_right (Nat.gcd_dvd_right m a) x)
    exact Nat.dvd_one.1 hd
  have h2 : x ≡ y [MOD m] := Nat.ModEq.cancel_left_of_coprime hco h1
  rwa [Nat.ModEq, Nat.mod_eq_of_lt (by omega), Nat.mod_eq_of_lt (by omega)] at h2

theorem gcd_eq_one_of_inverse {a m x : Nat} (hx : a * x % m = 1) : Nat.gcd a m = 1 := by
  have hd : Nat.gcd a m ∣ 1 := by
    rw [← hx]
    exact (Nat.dvd_mod_iff (Nat.gcd_dvd_right a m)).2 (Dvd.dvd.mul_right (Nat.gcd_dvd_left a m) x)
  exact Nat.dvd_one.1 hd

/-- R85: `mod_inverse` answers `x` exactly when `x` is the inverse in `[1, m-1]`. -/
theorem modInverse_eq_some_iff (a m x : Nat) :
    modInverse a m = some x ↔ 1 ≤ x ∧ x ≤ m - 1 ∧ a * x % m = 1 := by
  constructor
  · intro h
    simp only [modInverse] at h
    split at h
    · rename_i hc
      cases h
      exact hc
    · cases h
  · rintro ⟨h1, h2, h3⟩
    have hm : 2 ≤ m := by omega
    have hc := inverseCandidate_spec a m hm (gcd_eq_one_of_inverse h3)
    simp only [modInverse]
    rw [if_pos hc, Option.some_inj]
    exact inverse_unique hc.2.2 h3 hc.2.1 h2 hm

/-- R85 (b), (c): there is no inverse exactly when `m ≤ 1` or the gcd is not 1. -/
theorem modInverse_eq_none_iff (a m : Nat) : modInverse a m = none ↔ m ≤ 1 ∨ Nat.gcd a m ≠ 1 := by
  constructor
  · intro h
    by_contra hcon
    push Not at hcon
    have hc := inverseCandidate_spec a m (by omega) hcon.2
    rw [(modInverse_eq_some_iff a m _).2 hc] at h
    cases h
  · intro h
    cases hx : modInverse a m with
    | none => rfl
    | some x =>
      obtain ⟨h1, h2, h3⟩ := (modInverse_eq_some_iff a m x).1 hx
      rcases h with h | h
      · omega
      · exact absurd (gcd_eq_one_of_inverse h3) h

theorem searchInverse_eq_some_iff (a m x : Nat) :
    searchInverse a m = some x ↔ 1 ≤ x ∧ x ≤ m - 1 ∧ a * x % m = 1 := by
  rw [searchInverse]
  constructor
  · intro h
    have hp := List.find?_some h
    have hmem := List.mem_of_find?_eq_some h
    rw [List.mem_range'_1] at hmem
    exact ⟨hmem.1, by omega, by simpa using hp⟩
  · rintro ⟨h1, h2, h3⟩
    cases hf : (List.range' 1 (m - 1)).find? (fun x => decide (a * x % m = 1)) with
    | none =>
      have := List.find?_eq_none.1 hf x (by rw [List.mem_range'_1]; omega)
      simp [h3] at this
    | some y =>
      have hp := List.find?_some hf
      have hmem := List.mem_of_find?_eq_some hf
      rw [List.mem_range'_1] at hmem
      rw [Option.some_inj]
      exact inverse_unique (by simpa using hp) h3 (by omega) h2 (by omega)

/-- R80, R85: the value found by extended Euclid is the value of the spec's search, `none` included. -/
theorem modInverse_eq_search (a m : Nat) : modInverse a m = searchInverse a m := by
  cases h : searchInverse a m with
  | some x => rw [modInverse_eq_some_iff, ← searchInverse_eq_some_iff, h]
  | none =>
    cases h' : modInverse a m with
    | none => rfl
    | some x =>
      rw [modInverse_eq_some_iff, ← searchInverse_eq_some_iff, h] at h'
      cases h'

theorem modPowLoop_spec (m fuel r b e : Nat) (h : e < fuel) (he : e ≠ 0) :
    modPowLoop m fuel r b e = r * b ^ e % m := by
  induction fuel generalizing r b e with
  | zero => omega
  | succ fuel ih =>
    rw [modPowLoop, if_neg he]
    by_cases h2 : e / 2 = 0
    · have h1 : e = 1 := by omega
      subst h1
      cases fuel with
      | zero => omega
      | succ fuel => simp [modPowLoop]
    · rw [ih _ _ _ (by omega) h2]
      have hpow : (b * b % m) ^ (e / 2) % m = b ^ (2 * (e / 2)) % m := by
        rw [← Nat.pow_mod, pow_mul, pow_two]
      rcases Nat.mod_two_eq_zero_or_one e with hpar | hpar
      · have hee : 2 * (e / 2) = e := by omega
        rw [if_neg (by omega), Nat.mul_mod, hpow, hee, ← Nat.mul_mod]
      · have hee : e = 2 * (e / 2) + 1 := by omega
        rw [if_pos hpar, Nat.mul_mod, hpow, Nat.mod_mod, ← Nat.mul_mod]
        conv_rhs => rw [hee]
        ring_nf

/-- R87, `exp ≥ 1`. -/
theorem modPow_pos (base exp m : Nat) (h : exp ≠ 0) : modPow base exp m = base ^ exp % m := by
  rw [modPow, modPowLoop_spec m _ _ _ _ (by omega) h, one_mul, ← Nat.pow_mod]

/-- R87, `exp = 0`: the result is 1, for every modulus. -/
theorem modPow_zero (base m : Nat) : modPow base 0 m = 1 := by
  simp [modPow, modPowLoop]

/-- R88: what `mod_pow` stores. -/
theorem modPow_le (base exp m : Nat) (hm : 1 ≤ m) : modPow base exp m ≤ max 1 (m - 1) := by
  rcases Nat.eq_zero_or_pos exp with h | h
  · subst h
    rw [modPow_zero]
    exact le_max_left _ _
  · rw [modPow_pos base exp m (by omega)]
    have := Nat.mod_lt (base ^ exp) hm
    exact le_max_of_le_right (by omega)

/-- R101: the result is a position. -/
theorem affFwd_lt (a b x : Nat) : affFwd a b x < 26 := Nat.mod_lt _ (by decide)

/-- R102: the floor remainder is in `[0, 25]`. -/
theorem affInv_cast (ainv b y : Nat) :
    ((affInv ainv b y : Nat) : Int) = (ainv : Int) * ((y : Int) - (b : Int)) % 26 :=
  Int.toNat_of_nonneg (Int.emod_nonneg _ (by decide))

theorem affInv_lt (ainv b y : Nat) : affInv ainv b y < 26 := by
  have h1 := affInv_cast ainv b y
  have h2 := Int.emod_lt_of_pos ((ainv : Int) * ((y : Int) - (b : Int))) (b := 26) (by decide)
  omega

theorem isUpper_iff (ch : Nat) : isUpper ch = true ↔ 0x41 ≤ ch ∧ ch ≤ 0x5A := by simp [isUpper]

theorem isLower_iff (ch : Nat) : isLower ch = true ↔ 0x61 ≤ ch ∧ ch ≤ 0x7A := by simp [isLower]

theorem isLetter_iff (ch : Nat) :
    isLetter ch = true ↔ (0x41 ≤ ch ∧ ch ≤ 0x5A) ∨ (0x61 ≤ ch ∧ ch ≤ 0x7A) := by
  rw [isLetter, Bool.or_eq_true, isUpper_iff, isLower_iff]

theorem position_of_upper {ch : Nat} (h : 0x41 ≤ ch ∧ ch ≤ 0x5A) : position ch = ch - 0x41 := by
  rw [position, if_pos ((isUpper_iff ch).2 h)]

theorem position_of_lower {ch : Nat} (h : 0x61 ≤ ch ∧ ch ≤ 0x7A) : position ch = ch - 0x61 := by
  rw [position, if_neg (by rw [isUpper_iff]; omega)]

/-- R105: the position of a letter is in `[0, 25]`. -/
theorem position_lt {ch : Nat} (h : isLetter ch = true) : position ch < 26 := by
  rcases (isLetter_iff ch).1 h with h | h
  · rw [position_of_upper h]; omega
  · rw [position_of_lower h]; omega

/-- R105: a lower-case letter is a letter, at its own position. -/
theorem isLetter_letter {x : Nat} (h : x < 26) : isLetter (letter x) = true := by
  rw [isLetter_iff, letter]; omega

theorem position_letter {x : Nat} (h : x < 26) : position (letter x) = x := by
  rw [position_of_lower (by rw [letter]; omega), letter]; omega

end Sys2Proof.Machine
end

