-- ==== Sys2Proof/Laws/Decode.lean ====
section
/-! SUPPORT. Laws of the decoder and the encoder, field by field. -/

namespace Sys2Proof

variable {W : Width}

/-- R60: the field `ZERO` as a number. -/
theorem zeroField_toNat (w : Word W) : (zeroField w).toNat = w.toNat / 256 := by
  have h := w.isLt
  have hW : 2 ^ W.bits = 2 ^ (W.bits - 8) * 2 ^ 8 := by
    rw [← Nat.pow_add, Nat.sub_add_cancel (le_trans (by decide) W.atLeast)]
  rw [zeroField, BitVec.extractLsb'_toNat, Nat.shiftRight_eq_div_pow]
  exact Nat.mod_eq_of_lt (by rw [Nat.div_lt_iff_lt_mul (by decide), ← hW]; exact h)

/-- R60: the field `OPC` as a number. -/
theorem opcField_toNat (w : Word W) : (opcField w).toNat = w.toNat % 256 := by
  simp [opcField, BitVec.extractLsb'_toNat]

/-- R60: a command word's number is its opcode, at any width. -/
theorem encode_toNat (i : Instr) : (encode i : Word W).toNat = (opcode i).toNat := by
  have hW : 2 ^ 8 ≤ 2 ^ W.bits := Nat.pow_le_pow_right (by decide) (le_trans (by decide) W.atLeast)
  rw [encode, BitVec.toNat_setWidth]
  exact Nat.mod_eq_of_lt (lt_of_lt_of_le (opcode i).isLt hW)

@[simp] theorem opcField_encode (i : Instr) : opcField (encode i : Word W) = opcode i := by
  apply BitVec.eq_of_toNat_eq
  rw [opcField_toNat, encode_toNat]
  exact Nat.mod_eq_of_lt (opcode i).isLt

@[simp] theorem zeroField_encode (i : Instr) : zeroField (encode i : Word W) = 0 := by
  apply BitVec.eq_of_toNat_eq
  rw [zeroField_toNat, encode_toNat, Nat.div_eq_of_lt (opcode i).isLt]
  rfl

@[simp] theorem decodeOpc_opcode (i : Instr) : decodeOpc (opcode i) = some i := by
  cases i <;> rfl

/-- R66: an opcode names at most one command, and only its own number is read as it. -/
theorem opcode_of_decodeOpc : ∀ (b : BitVec 8) (i : Instr), decodeOpc b = some i → b = opcode i := by
  have key : ∀ b : BitVec 8, ∀ i ∈ decodeOpc b, b = opcode i := by decide
  exact fun b i h => key b i h

/-- R66: `ZERO` is looked at before `OPC`. -/
theorem decode_of_zeroField_ne {w : Word W} (h : zeroField w ≠ 0) : decode w = .error .zeroField := by
  rw [decode, if_pos h]

theorem decode_of_opcode {w : Word W} {i : Instr} (hz : zeroField w = 0) (h : decodeOpc (opcField w) = some i) :
    decode w = .ok i := by
  rw [decode, if_neg (not_not.2 hz), h]

theorem decode_of_unassigned {w : Word W} (hz : zeroField w = 0) (h : decodeOpc (opcField w) = none) :
    decode w = .error .opcode := by
  rw [decode, if_neg (not_not.2 hz), h]

/-- R61, R66: decoding an encoded command gives it back, at any width. -/
@[simp] theorem decode_encode (i : Instr) : decode (encode i : Word W) = .ok i :=
  decode_of_opcode (zeroField_encode i) (by rw [opcField_encode, decodeOpc_opcode])

/-- R61: a word whose number is a command's opcode is that command's word, at any width. -/
theorem eq_encode_of_toNat {w : Word W} {i : Instr} (h : w.toNat = (opcode i).toNat) : w = encode i :=
  BitVec.eq_of_toNat_eq (h.trans (encode_toNat i).symm)

end Sys2Proof
end

