-- ==== Sys2Proof/Laws/State.lean ====
section
/-! SUPPORT. Laws of State: one lemma per field per update, each true by `rfl`. -/

namespace Sys2Proof.Machine

section Block

variable {W : Width} (b : Block W)

@[simp] theorem Block.succeed_eq (n : Nat) : b.succeed n = b.finish (Word.ofNat n) .ok := rfl
@[simp] theorem Block.fail_eq (e : ErrCode) : b.fail e = b.finish 0 e := rfl
@[simp] theorem Block.dropAff_eq : b.dropAff = b.setAff 0 0 0 false := rfl
@[simp] theorem Block.dropRsa_eq : b.dropRsa = b.setRsa 0 0 0 0 0 0 false := rfl

@[simp] theorem Block.finish_cmd (v : Word W) (e : ErrCode) : (b.finish v e).cmd = b.cmd := rfl
@[simp] theorem Block.finish_op0 (v : Word W) (e : ErrCode) : (b.finish v e).op0 = b.op0 := rfl
@[simp] theorem Block.finish_op1 (v : Word W) (e : ErrCode) : (b.finish v e).op1 = b.op1 := rfl
@[simp] theorem Block.finish_op2 (v : Word W) (e : ErrCode) : (b.finish v e).op2 = b.op2 := rfl
@[simp] theorem Block.finish_res (v : Word W) (e : ErrCode) : (b.finish v e).res = v := rfl
@[simp] theorem Block.finish_busy (v : Word W) (e : ErrCode) : (b.finish v e).busy = false := rfl
@[simp] theorem Block.finish_done (v : Word W) (e : ErrCode) : (b.finish v e).done = true := rfl
@[simp] theorem Block.finish_akv (v : Word W) (e : ErrCode) : (b.finish v e).akv = b.akv := rfl
@[simp] theorem Block.finish_rkv (v : Word W) (e : ErrCode) : (b.finish v e).rkv = b.rkv := rfl
@[simp] theorem Block.finish_ovr (v : Word W) (e : ErrCode) : (b.finish v e).ovr = b.ovr := rfl
@[simp] theorem Block.finish_err (v : Word W) (e : ErrCode) : (b.finish v e).err = e.code := rfl
@[simp] theorem Block.finish_aff_a (v : Word W) (e : ErrCode) : (b.finish v e).aff_a = b.aff_a := rfl
@[simp] theorem Block.finish_aff_b (v : Word W) (e : ErrCode) : (b.finish v e).aff_b = b.aff_b := rfl
@[simp] theorem Block.finish_aff_ainv (v : Word W) (e : ErrCode) : (b.finish v e).aff_ainv = b.aff_ainv := rfl
@[simp] theorem Block.finish_rsa_p (v : Word W) (e : ErrCode) : (b.finish v e).rsa_p = b.rsa_p := rfl
@[simp] theorem Block.finish_rsa_q (v : Word W) (e : ErrCode) : (b.finish v e).rsa_q = b.rsa_q := rfl
@[simp] theorem Block.finish_rsa_e (v : Word W) (e : ErrCode) : (b.finish v e).rsa_e = b.rsa_e := rfl
@[simp] theorem Block.finish_rsa_n (v : Word W) (e : ErrCode) : (b.finish v e).rsa_n = b.rsa_n := rfl
@[simp] theorem Block.finish_rsa_phi (v : Word W) (e : ErrCode) : (b.finish v e).rsa_phi = b.rsa_phi := rfl
@[simp] theorem Block.finish_rsa_d (v : Word W) (e : ErrCode) : (b.finish v e).rsa_d = b.rsa_d := rfl

@[simp] theorem Block.setAff_cmd (x y inv : Word W) (k : Bool) : (b.setAff x y inv k).cmd = b.cmd := rfl
@[simp] theorem Block.setAff_op0 (x y inv : Word W) (k : Bool) : (b.setAff x y inv k).op0 = b.op0 := rfl
@[simp] theorem Block.setAff_op1 (x y inv : Word W) (k : Bool) : (b.setAff x y inv k).op1 = b.op1 := rfl
@[simp] theorem Block.setAff_op2 (x y inv : Word W) (k : Bool) : (b.setAff x y inv k).op2 = b.op2 := rfl
@[simp] theorem Block.setAff_res (x y inv : Word W) (k : Bool) : (b.setAff x y inv k).res = b.res := rfl
@[simp] theorem Block.setAff_busy (x y inv : Word W) (k : Bool) : (b.setAff x y inv k).busy = b.busy := rfl
@[simp] theorem Block.setAff_done (x y inv : Word W) (k : Bool) : (b.setAff x y inv k).done = b.done := rfl
@[simp] theorem Block.setAff_akv (x y inv : Word W) (k : Bool) : (b.setAff x y inv k).akv = k := rfl
@[simp] theorem Block.setAff_rkv (x y inv : Word W) (k : Bool) : (b.setAff x y inv k).rkv = b.rkv := rfl
@[simp] theorem Block.setAff_ovr (x y inv : Word W) (k : Bool) : (b.setAff x y inv k).ovr = b.ovr := rfl
@[simp] theorem Block.setAff_err (x y inv : Word W) (k : Bool) : (b.setAff x y inv k).err = b.err := rfl
@[simp] theorem Block.setAff_aff_a (x y inv : Word W) (k : Bool) : (b.setAff x y inv k).aff_a = x := rfl
@[simp] theorem Block.setAff_aff_b (x y inv : Word W) (k : Bool) : (b.setAff x y inv k).aff_b = y := rfl
@[simp] theorem Block.setAff_aff_ainv (x y inv : Word W) (k : Bool) : (b.setAff x y inv k).aff_ainv = inv := rfl
@[simp] theorem Block.setAff_rsa_p (x y inv : Word W) (k : Bool) : (b.setAff x y inv k).rsa_p = b.rsa_p := rfl
@[simp] theorem Block.setAff_rsa_q (x y inv : Word W) (k : Bool) : (b.setAff x y inv k).rsa_q = b.rsa_q := rfl
@[simp] theorem Block.setAff_rsa_e (x y inv : Word W) (k : Bool) : (b.setAff x y inv k).rsa_e = b.rsa_e := rfl
@[simp] theorem Block.setAff_rsa_n (x y inv : Word W) (k : Bool) : (b.setAff x y inv k).rsa_n = b.rsa_n := rfl
@[simp] theorem Block.setAff_rsa_phi (x y inv : Word W) (k : Bool) : (b.setAff x y inv k).rsa_phi = b.rsa_phi := rfl
@[simp] theorem Block.setAff_rsa_d (x y inv : Word W) (k : Bool) : (b.setAff x y inv k).rsa_d = b.rsa_d := rfl

@[simp] theorem Block.setRsa_cmd (p q e n phi d : Word W) (k : Bool) : (b.setRsa p q e n phi d k).cmd = b.cmd := rfl
@[simp] theorem Block.setRsa_op0 (p q e n phi d : Word W) (k : Bool) : (b.setRsa p q e n phi d k).op0 = b.op0 := rfl
@[simp] theorem Block.setRsa_op1 (p q e n phi d : Word W) (k : Bool) : (b.setRsa p q e n phi d k).op1 = b.op1 := rfl
@[simp] theorem Block.setRsa_op2 (p q e n phi d : Word W) (k : Bool) : (b.setRsa p q e n phi d k).op2 = b.op2 := rfl
@[simp] theorem Block.setRsa_res (p q e n phi d : Word W) (k : Bool) : (b.setRsa p q e n phi d k).res = b.res := rfl
@[simp] theorem Block.setRsa_busy (p q e n phi d : Word W) (k : Bool) : (b.setRsa p q e n phi d k).busy = b.busy := rfl
@[simp] theorem Block.setRsa_done (p q e n phi d : Word W) (k : Bool) : (b.setRsa p q e n phi d k).done = b.done := rfl
@[simp] theorem Block.setRsa_akv (p q e n phi d : Word W) (k : Bool) : (b.setRsa p q e n phi d k).akv = b.akv := rfl
@[simp] theorem Block.setRsa_rkv (p q e n phi d : Word W) (k : Bool) : (b.setRsa p q e n phi d k).rkv = k := rfl
@[simp] theorem Block.setRsa_ovr (p q e n phi d : Word W) (k : Bool) : (b.setRsa p q e n phi d k).ovr = b.ovr := rfl
@[simp] theorem Block.setRsa_err (p q e n phi d : Word W) (k : Bool) : (b.setRsa p q e n phi d k).err = b.err := rfl
@[simp] theorem Block.setRsa_aff_a (p q e n phi d : Word W) (k : Bool) : (b.setRsa p q e n phi d k).aff_a = b.aff_a := rfl
@[simp] theorem Block.setRsa_aff_b (p q e n phi d : Word W) (k : Bool) : (b.setRsa p q e n phi d k).aff_b = b.aff_b := rfl
@[simp] theorem Block.setRsa_aff_ainv (p q e n phi d : Word W) (k : Bool) : (b.setRsa p q e n phi d k).aff_ainv = b.aff_ainv := rfl
@[simp] theorem Block.setRsa_rsa_p (p q e n phi d : Word W) (k : Bool) : (b.setRsa p q e n phi d k).rsa_p = p := rfl
@[simp] theorem Block.setRsa_rsa_q (p q e n phi d : Word W) (k : Bool) : (b.setRsa p q e n phi d k).rsa_q = q := rfl
@[simp] theorem Block.setRsa_rsa_e (p q e n phi d : Word W) (k : Bool) : (b.setRsa p q e n phi d k).rsa_e = e := rfl
@[simp] theorem Block.setRsa_rsa_n (p q e n phi d : Word W) (k : Bool) : (b.setRsa p q e n phi d k).rsa_n = n := rfl
@[simp] theorem Block.setRsa_rsa_phi (p q e n phi d : Word W) (k : Bool) : (b.setRsa p q e n phi d k).rsa_phi = phi := rfl
@[simp] theorem Block.setRsa_rsa_d (p q e n phi d : Word W) (k : Bool) : (b.setRsa p q e n phi d k).rsa_d = d := rfl

@[simp] theorem Block.accept_cmd (v : Word W) : (b.accept v).cmd = v := rfl
@[simp] theorem Block.accept_op0 (v : Word W) : (b.accept v).op0 = b.op0 := rfl
@[simp] theorem Block.accept_op1 (v : Word W) : (b.accept v).op1 = b.op1 := rfl
@[simp] theorem Block.accept_op2 (v : Word W) : (b.accept v).op2 = b.op2 := rfl
@[simp] theorem Block.accept_res (v : Word W) : (b.accept v).res = b.res := rfl
@[simp] theorem Block.accept_busy (v : Word W) : (b.accept v).busy = true := rfl
@[simp] theorem Block.accept_done (v : Word W) : (b.accept v).done = false := rfl
@[simp] theorem Block.accept_akv (v : Word W) : (b.accept v).akv = b.akv := rfl
@[simp] theorem Block.accept_rkv (v : Word W) : (b.accept v).rkv = b.rkv := rfl
@[simp] theorem Block.accept_ovr (v : Word W) : (b.accept v).ovr = b.ovr := rfl
@[simp] theorem Block.accept_err (v : Word W) : (b.accept v).err = b.err := rfl
@[simp] theorem Block.accept_aff_a (v : Word W) : (b.accept v).aff_a = b.aff_a := rfl
@[simp] theorem Block.accept_aff_b (v : Word W) : (b.accept v).aff_b = b.aff_b := rfl
@[simp] theorem Block.accept_aff_ainv (v : Word W) : (b.accept v).aff_ainv = b.aff_ainv := rfl
@[simp] theorem Block.accept_rsa_p (v : Word W) : (b.accept v).rsa_p = b.rsa_p := rfl
@[simp] theorem Block.accept_rsa_q (v : Word W) : (b.accept v).rsa_q = b.rsa_q := rfl
@[simp] theorem Block.accept_rsa_e (v : Word W) : (b.accept v).rsa_e = b.rsa_e := rfl
@[simp] theorem Block.accept_rsa_n (v : Word W) : (b.accept v).rsa_n = b.rsa_n := rfl
@[simp] theorem Block.accept_rsa_phi (v : Word W) : (b.accept v).rsa_phi = b.rsa_phi := rfl
@[simp] theorem Block.accept_rsa_d (v : Word W) : (b.accept v).rsa_d = b.rsa_d := rfl

@[simp] theorem Block.setOvr_cmd : b.setOvr.cmd = b.cmd := rfl
@[simp] theorem Block.setOvr_op0 : b.setOvr.op0 = b.op0 := rfl
@[simp] theorem Block.setOvr_op1 : b.setOvr.op1 = b.op1 := rfl
@[simp] theorem Block.setOvr_op2 : b.setOvr.op2 = b.op2 := rfl
@[simp] theorem Block.setOvr_res : b.setOvr.res = b.res := rfl
@[simp] theorem Block.setOvr_busy : b.setOvr.busy = b.busy := rfl
@[simp] theorem Block.setOvr_done : b.setOvr.done = b.done := rfl
@[simp] theorem Block.setOvr_akv : b.setOvr.akv = b.akv := rfl
@[simp] theorem Block.setOvr_rkv : b.setOvr.rkv = b.rkv := rfl
@[simp] theorem Block.setOvr_ovr : b.setOvr.ovr = true := rfl
@[simp] theorem Block.setOvr_err : b.setOvr.err = b.err := rfl
@[simp] theorem Block.setOvr_aff_a : b.setOvr.aff_a = b.aff_a := rfl
@[simp] theorem Block.setOvr_aff_b : b.setOvr.aff_b = b.aff_b := rfl
@[simp] theorem Block.setOvr_aff_ainv : b.setOvr.aff_ainv = b.aff_ainv := rfl
@[simp] theorem Block.setOvr_rsa_p : b.setOvr.rsa_p = b.rsa_p := rfl
@[simp] theorem Block.setOvr_rsa_q : b.setOvr.rsa_q = b.rsa_q := rfl
@[simp] theorem Block.setOvr_rsa_e : b.setOvr.rsa_e = b.rsa_e := rfl
@[simp] theorem Block.setOvr_rsa_n : b.setOvr.rsa_n = b.rsa_n := rfl
@[simp] theorem Block.setOvr_rsa_phi : b.setOvr.rsa_phi = b.rsa_phi := rfl
@[simp] theorem Block.setOvr_rsa_d : b.setOvr.rsa_d = b.rsa_d := rfl

@[simp] theorem Block.setOp0_cmd (v : Word W) : (b.setOp0 v).cmd = b.cmd := rfl
@[simp] theorem Block.setOp0_op0 (v : Word W) : (b.setOp0 v).op0 = v := rfl
@[simp] theorem Block.setOp0_op1 (v : Word W) : (b.setOp0 v).op1 = b.op1 := rfl
@[simp] theorem Block.setOp0_op2 (v : Word W) : (b.setOp0 v).op2 = b.op2 := rfl
@[simp] theorem Block.setOp0_res (v : Word W) : (b.setOp0 v).res = b.res := rfl
@[simp] theorem Block.setOp0_busy (v : Word W) : (b.setOp0 v).busy = b.busy := rfl
@[simp] theorem Block.setOp0_done (v : Word W) : (b.setOp0 v).done = b.done := rfl
@[simp] theorem Block.setOp0_akv (v : Word W) : (b.setOp0 v).akv = b.akv := rfl
@[simp] theorem Block.setOp0_rkv (v : Word W) : (b.setOp0 v).rkv = b.rkv := rfl
@[simp] theorem Block.setOp0_ovr (v : Word W) : (b.setOp0 v).ovr = b.ovr := rfl
@[simp] theorem Block.setOp0_err (v : Word W) : (b.setOp0 v).err = b.err := rfl
@[simp] theorem Block.setOp0_aff_a (v : Word W) : (b.setOp0 v).aff_a = b.aff_a := rfl
@[simp] theorem Block.setOp0_aff_b (v : Word W) : (b.setOp0 v).aff_b = b.aff_b := rfl
@[simp] theorem Block.setOp0_aff_ainv (v : Word W) : (b.setOp0 v).aff_ainv = b.aff_ainv := rfl
@[simp] theorem Block.setOp0_rsa_p (v : Word W) : (b.setOp0 v).rsa_p = b.rsa_p := rfl
@[simp] theorem Block.setOp0_rsa_q (v : Word W) : (b.setOp0 v).rsa_q = b.rsa_q := rfl
@[simp] theorem Block.setOp0_rsa_e (v : Word W) : (b.setOp0 v).rsa_e = b.rsa_e := rfl
@[simp] theorem Block.setOp0_rsa_n (v : Word W) : (b.setOp0 v).rsa_n = b.rsa_n := rfl
@[simp] theorem Block.setOp0_rsa_phi (v : Word W) : (b.setOp0 v).rsa_phi = b.rsa_phi := rfl
@[simp] theorem Block.setOp0_rsa_d (v : Word W) : (b.setOp0 v).rsa_d = b.rsa_d := rfl

@[simp] theorem Block.setOp1_cmd (v : Word W) : (b.setOp1 v).cmd = b.cmd := rfl
@[simp] theorem Block.setOp1_op0 (v : Word W) : (b.setOp1 v).op0 = b.op0 := rfl
@[simp] theorem Block.setOp1_op1 (v : Word W) : (b.setOp1 v).op1 = v := rfl
@[simp] theorem Block.setOp1_op2 (v : Word W) : (b.setOp1 v).op2 = b.op2 := rfl
@[simp] theorem Block.setOp1_res (v : Word W) : (b.setOp1 v).res = b.res := rfl
@[simp] theorem Block.setOp1_busy (v : Word W) : (b.setOp1 v).busy = b.busy := rfl
@[simp] theorem Block.setOp1_done (v : Word W) : (b.setOp1 v).done = b.done := rfl
@[simp] theorem Block.setOp1_akv (v : Word W) : (b.setOp1 v).akv = b.akv := rfl
@[simp] theorem Block.setOp1_rkv (v : Word W) : (b.setOp1 v).rkv = b.rkv := rfl
@[simp] theorem Block.setOp1_ovr (v : Word W) : (b.setOp1 v).ovr = b.ovr := rfl
@[simp] theorem Block.setOp1_err (v : Word W) : (b.setOp1 v).err = b.err := rfl
@[simp] theorem Block.setOp1_aff_a (v : Word W) : (b.setOp1 v).aff_a = b.aff_a := rfl
@[simp] theorem Block.setOp1_aff_b (v : Word W) : (b.setOp1 v).aff_b = b.aff_b := rfl
@[simp] theorem Block.setOp1_aff_ainv (v : Word W) : (b.setOp1 v).aff_ainv = b.aff_ainv := rfl
@[simp] theorem Block.setOp1_rsa_p (v : Word W) : (b.setOp1 v).rsa_p = b.rsa_p := rfl
@[simp] theorem Block.setOp1_rsa_q (v : Word W) : (b.setOp1 v).rsa_q = b.rsa_q := rfl
@[simp] theorem Block.setOp1_rsa_e (v : Word W) : (b.setOp1 v).rsa_e = b.rsa_e := rfl
@[simp] theorem Block.setOp1_rsa_n (v : Word W) : (b.setOp1 v).rsa_n = b.rsa_n := rfl
@[simp] theorem Block.setOp1_rsa_phi (v : Word W) : (b.setOp1 v).rsa_phi = b.rsa_phi := rfl
@[simp] theorem Block.setOp1_rsa_d (v : Word W) : (b.setOp1 v).rsa_d = b.rsa_d := rfl

@[simp] theorem Block.setOp2_cmd (v : Word W) : (b.setOp2 v).cmd = b.cmd := rfl
@[simp] theorem Block.setOp2_op0 (v : Word W) : (b.setOp2 v).op0 = b.op0 := rfl
@[simp] theorem Block.setOp2_op1 (v : Word W) : (b.setOp2 v).op1 = b.op1 := rfl
@[simp] theorem Block.setOp2_op2 (v : Word W) : (b.setOp2 v).op2 = v := rfl
@[simp] theorem Block.setOp2_res (v : Word W) : (b.setOp2 v).res = b.res := rfl
@[simp] theorem Block.setOp2_busy (v : Word W) : (b.setOp2 v).busy = b.busy := rfl
@[simp] theorem Block.setOp2_done (v : Word W) : (b.setOp2 v).done = b.done := rfl
@[simp] theorem Block.setOp2_akv (v : Word W) : (b.setOp2 v).akv = b.akv := rfl
@[simp] theorem Block.setOp2_rkv (v : Word W) : (b.setOp2 v).rkv = b.rkv := rfl
@[simp] theorem Block.setOp2_ovr (v : Word W) : (b.setOp2 v).ovr = b.ovr := rfl
@[simp] theorem Block.setOp2_err (v : Word W) : (b.setOp2 v).err = b.err := rfl
@[simp] theorem Block.setOp2_aff_a (v : Word W) : (b.setOp2 v).aff_a = b.aff_a := rfl
@[simp] theorem Block.setOp2_aff_b (v : Word W) : (b.setOp2 v).aff_b = b.aff_b := rfl
@[simp] theorem Block.setOp2_aff_ainv (v : Word W) : (b.setOp2 v).aff_ainv = b.aff_ainv := rfl
@[simp] theorem Block.setOp2_rsa_p (v : Word W) : (b.setOp2 v).rsa_p = b.rsa_p := rfl
@[simp] theorem Block.setOp2_rsa_q (v : Word W) : (b.setOp2 v).rsa_q = b.rsa_q := rfl
@[simp] theorem Block.setOp2_rsa_e (v : Word W) : (b.setOp2 v).rsa_e = b.rsa_e := rfl
@[simp] theorem Block.setOp2_rsa_n (v : Word W) : (b.setOp2 v).rsa_n = b.rsa_n := rfl
@[simp] theorem Block.setOp2_rsa_phi (v : Word W) : (b.setOp2 v).rsa_phi = b.rsa_phi := rfl
@[simp] theorem Block.setOp2_rsa_d (v : Word W) : (b.setOp2 v).rsa_d = b.rsa_d := rfl

@[simp] theorem Block.reset_cmd : (Block.reset : Block W).cmd = 0 := rfl
@[simp] theorem Block.reset_op0 : (Block.reset : Block W).op0 = 0 := rfl
@[simp] theorem Block.reset_op1 : (Block.reset : Block W).op1 = 0 := rfl
@[simp] theorem Block.reset_op2 : (Block.reset : Block W).op2 = 0 := rfl
@[simp] theorem Block.reset_res : (Block.reset : Block W).res = 0 := rfl
@[simp] theorem Block.reset_busy : (Block.reset : Block W).busy = false := rfl
@[simp] theorem Block.reset_done : (Block.reset : Block W).done = false := rfl
@[simp] theorem Block.reset_akv : (Block.reset : Block W).akv = false := rfl
@[simp] theorem Block.reset_rkv : (Block.reset : Block W).rkv = false := rfl
@[simp] theorem Block.reset_ovr : (Block.reset : Block W).ovr = false := rfl
@[simp] theorem Block.reset_err : (Block.reset : Block W).err = 0 := rfl
@[simp] theorem Block.reset_aff_a : (Block.reset : Block W).aff_a = 0 := rfl
@[simp] theorem Block.reset_aff_b : (Block.reset : Block W).aff_b = 0 := rfl
@[simp] theorem Block.reset_aff_ainv : (Block.reset : Block W).aff_ainv = 0 := rfl
@[simp] theorem Block.reset_rsa_p : (Block.reset : Block W).rsa_p = 0 := rfl
@[simp] theorem Block.reset_rsa_q : (Block.reset : Block W).rsa_q = 0 := rfl
@[simp] theorem Block.reset_rsa_e : (Block.reset : Block W).rsa_e = 0 := rfl
@[simp] theorem Block.reset_rsa_n : (Block.reset : Block W).rsa_n = 0 := rfl
@[simp] theorem Block.reset_rsa_phi : (Block.reset : Block W).rsa_phi = 0 := rfl
@[simp] theorem Block.reset_rsa_d : (Block.reset : Block W).rsa_d = 0 := rfl

end Block

section State

variable (s : State)

@[simp] theorem State.withBlock_W (b : Block s.W) : (s.withBlock b).W = s.W := rfl
@[simp] theorem State.withBlock_block (b : Block s.W) : (s.withBlock b).block = b := rfl
@[simp] theorem State.withBlock_prog (b : Block s.W) : (s.withBlock b).prog = s.prog := rfl
@[simp] theorem State.withBlock_index (b : Block s.W) : (s.withBlock b).index = s.index := rfl
@[simp] theorem State.withBlock_reads (b : Block s.W) : (s.withBlock b).reads = s.reads := rfl
@[simp] theorem State.withBlock_wait (b : Block s.W) : (s.withBlock b).wait = s.wait := rfl
@[simp] theorem State.withBlock_draws (b : Block s.W) : (s.withBlock b).draws = s.draws := rfl

@[simp] theorem State.advance_W : s.advance.W = s.W := rfl
@[simp] theorem State.advance_block : s.advance.block = s.block := rfl
@[simp] theorem State.advance_prog : s.advance.prog = s.prog := rfl
@[simp] theorem State.advance_index : s.advance.index = s.index + 1 := rfl
@[simp] theorem State.advance_reads : s.advance.reads = s.reads := rfl
@[simp] theorem State.advance_wait : s.advance.wait = s.wait := rfl
@[simp] theorem State.advance_draws : s.advance.draws = s.draws := rfl

@[simp] theorem State.logRead_W (i : RegIndex) : (s.logRead i).W = s.W := rfl
@[simp] theorem State.logRead_block (i : RegIndex) : (s.logRead i).block = s.block := rfl
@[simp] theorem State.logRead_prog (i : RegIndex) : (s.logRead i).prog = s.prog := rfl
@[simp] theorem State.logRead_index (i : RegIndex) : (s.logRead i).index = s.index := rfl
@[simp] theorem State.logRead_reads (i : RegIndex) : (s.logRead i).reads = s.reads ++ [⟨i, s.block.regRead i⟩] := rfl
@[simp] theorem State.logRead_wait (i : RegIndex) : (s.logRead i).wait = s.wait := rfl
@[simp] theorem State.logRead_draws (i : RegIndex) : (s.logRead i).draws = s.draws := rfl

@[simp] theorem State.tick_W : s.tick.W = s.W := rfl
@[simp] theorem State.tick_block : s.tick.block = s.block := rfl
@[simp] theorem State.tick_prog : s.tick.prog = s.prog := rfl
@[simp] theorem State.tick_index : s.tick.index = s.index := rfl
@[simp] theorem State.tick_reads : s.tick.reads = s.reads := rfl
@[simp] theorem State.tick_wait : s.tick.wait = s.wait - 1 := rfl
@[simp] theorem State.tick_draws : s.tick.draws = s.draws := rfl

@[simp] theorem State.drawLatency_W : s.drawLatency.W = s.W := rfl
@[simp] theorem State.drawLatency_block : s.drawLatency.block = s.block := rfl
@[simp] theorem State.drawLatency_prog : s.drawLatency.prog = s.prog := rfl
@[simp] theorem State.drawLatency_index : s.drawLatency.index = s.index := rfl
@[simp] theorem State.drawLatency_reads : s.drawLatency.reads = s.reads := rfl
@[simp] theorem State.drawLatency_wait : s.drawLatency.wait = Config.latency s.draws := rfl
@[simp] theorem State.drawLatency_draws : s.drawLatency.draws = s.draws + 1 := rfl

@[simp] theorem State.blockReset_W : s.blockReset.W = s.W := rfl
@[simp] theorem State.blockReset_block : s.blockReset.block = Block.reset := rfl
@[simp] theorem State.blockReset_prog : s.blockReset.prog = s.prog := rfl
@[simp] theorem State.blockReset_index : s.blockReset.index = s.index := rfl
@[simp] theorem State.blockReset_reads : s.blockReset.reads = s.reads := rfl
@[simp] theorem State.blockReset_wait : s.blockReset.wait = s.wait := rfl
@[simp] theorem State.blockReset_draws : s.blockReset.draws = s.draws := rfl

@[simp] theorem State.inFlight_W (v : Word s.W) : (s.inFlight v).W = s.W := rfl
@[simp] theorem State.inFlight_block (v : Word s.W) : (s.inFlight v).block = s.block.accept v := rfl
@[simp] theorem State.inFlight_prog (v : Word s.W) : (s.inFlight v).prog = s.prog := rfl
@[simp] theorem State.inFlight_index (v : Word s.W) : (s.inFlight v).index = s.index := rfl
@[simp] theorem State.inFlight_reads (v : Word s.W) : (s.inFlight v).reads = s.reads := rfl
@[simp] theorem State.inFlight_wait (v : Word s.W) : (s.inFlight v).wait = 0 := rfl
@[simp] theorem State.inFlight_draws (v : Word s.W) : (s.inFlight v).draws = s.draws := rfl

end State

end Sys2Proof.Machine
end

