-- ==== Sys2Proof/Laws/Exec.lean ====
section
/-! SUPPORT. Laws of the completion steps: said once, everything a command can do. -/

namespace Sys2Proof.Machine

variable {W : Width}

/-- The block's part of each command's completion step. -/
def Block.effect (b : Block W) : Instr → Block W
  | .gcd => b.gcd
  | .isprime => b.isprime
  | .modinv => b.modinv
  | .modpow => b.modpow
  | .affKey => b.affKey
  | .affEnc => b.affEnc
  | .affDec => b.affDec
  | .affEncc => b.affEncc
  | .affDecc => b.affDecc
  | .affDrop => b.affDrop
  | .rsaKey => b.rsaKey
  | .rsaEnc => b.rsaEnc
  | .rsaDec => b.rsaDec
  | .rsaDrop => b.rsaDrop

/-- R31: a completion step answers a next state, and is a function of the block alone. -/
theorem exec_eq (i : Instr) (s : State) : exec i s = .next (s.withBlock (s.block.effect i)) := by
  cases i <;> rfl

/-- R31: a position transform ends in one way, by `finish`. -/
theorem affPosition_cases (b : Block W) (f : Nat → Nat) : ∃ v e, affPosition b f = b.finish v e := by
  rw [affPosition]
  split
  · exact ⟨_, _, rfl⟩
  · split <;> exact ⟨_, _, rfl⟩

theorem affCharacter_cases (b : Block W) (f : Nat → Nat) : ∃ v e, affCharacter b f = b.finish v e := by
  rw [affCharacter]
  split
  · exact ⟨_, _, rfl⟩
  · split <;> exact ⟨_, _, rfl⟩

/-- R103, R104: the three ways a position transform ends. -/
theorem affPosition_noKey {b : Block W} (h : b.akv = false) (f : Nat → Nat) :
    affPosition b f = b.fail .noKey := by rw [affPosition, if_pos h]

theorem affPosition_operand {b : Block W} (h : b.akv = true) (h' : 26 ≤ b.operand0) (f : Nat → Nat) :
    affPosition b f = b.fail .operand := by
  rw [affPosition, if_neg (by rw [h]; decide), if_pos h']

theorem affPosition_ok {b : Block W} (h : b.akv = true) (h' : b.operand0 ≤ 25) (f : Nat → Nat) :
    affPosition b f = b.succeed (f b.operand0) := by
  rw [affPosition, if_neg (by rw [h]; decide), if_neg (Nat.not_le.2 (Nat.lt_succ_of_le h'))]

/-- R106, R107: the three ways a character transform ends. -/
theorem affCharacter_noKey {b : Block W} (h : b.akv = false) (f : Nat → Nat) :
    affCharacter b f = b.fail .noKey := by rw [affCharacter, if_pos h]

theorem affCharacter_letter {b : Block W} (h : b.akv = true) (h' : isLetter b.operand0 = true) (f : Nat → Nat) :
    affCharacter b f = b.succeed (letter (f (position b.operand0))) := by
  rw [affCharacter, if_neg (by rw [h]; decide), if_pos h']

/-- A code that is no letter passes through as the word it is (R106). -/
theorem affCharacter_other {b : Block W} (h : b.akv = true) (h' : isLetter b.operand0 = false) (f : Nat → Nat) :
    affCharacter b f = b.finish b.op0 .ok := by
  rw [affCharacter, if_neg (by rw [h]; decide), if_neg (by rw [h']; decide), Block.succeed,
    Word.ofNat, Block.operand0, BitVec.ofNat_toNat, BitVec.setWidth_eq]

/-- R31: every completion step writes RES and STATUS, and for the four key commands one key store whole. -/
theorem Block.effect_cases (i : Instr) (b : Block W) :
    (∃ v e, b.effect i = b.finish v e) ∨
    (∃ x y inv k v e, (i = .affKey ∨ i = .affDrop) ∧ b.effect i = (b.setAff x y inv k).finish v e) ∨
    (∃ p q x n phi d k v e, (i = .rsaKey ∨ i = .rsaDrop) ∧
      b.effect i = (b.setRsa p q x n phi d k).finish v e) := by
  cases i
  case gcd => exact .inl ⟨_, _, rfl⟩
  case isprime => exact .inl ⟨_, _, rfl⟩
  case modinv =>
    refine .inl ?_
    simp only [Block.effect, Block.modinv]
    split <;> exact ⟨_, _, rfl⟩
  case modpow =>
    refine .inl ?_
    simp only [Block.effect, Block.modpow]
    split <;> exact ⟨_, _, rfl⟩
  case affKey =>
    refine .inr (.inl ?_)
    simp only [Block.effect, Block.affKey]
    split
    · exact ⟨_, _, _, _, _, _, .inl trivial, rfl⟩
    · split <;> exact ⟨_, _, _, _, _, _, .inl trivial, rfl⟩
  case affEnc => exact .inl (affPosition_cases _ _)
  case affDec => exact .inl (affPosition_cases _ _)
  case affEncc => exact .inl (affCharacter_cases _ _)
  case affDecc => exact .inl (affCharacter_cases _ _)
  case affDrop => exact .inr (.inl ⟨_, _, _, _, _, _, .inr rfl, rfl⟩)
  case rsaKey =>
    refine .inr (.inr ?_)
    simp only [Block.effect, Block.rsaKey]
    split
    · exact ⟨_, _, _, _, _, _, _, _, _, .inl trivial, rfl⟩
    · split
      · exact ⟨_, _, _, _, _, _, _, _, _, .inl trivial, rfl⟩
      · split
        · exact ⟨_, _, _, _, _, _, _, _, _, .inl trivial, rfl⟩
        · split <;> exact ⟨_, _, _, _, _, _, _, _, _, .inl trivial, rfl⟩
  case rsaEnc =>
    refine .inl ?_
    simp only [Block.effect, Block.rsaEnc]
    split
    · exact ⟨_, _, rfl⟩
    · split <;> exact ⟨_, _, rfl⟩
  case rsaDec =>
    refine .inl ?_
    simp only [Block.effect, Block.rsaDec]
    split <;> exact ⟨_, _, rfl⟩
  case rsaDrop => exact .inr (.inr ⟨_, _, _, _, _, _, _, _, _, .inr rfl, rfl⟩)

/-- R150: the codes fit. -/
theorem ErrCode.code_toNat_le (e : ErrCode) : e.code.toNat ≤ 7 := by
  cases e <;> decide

/-- R100 with R85 (b): the inverse modulo 26 exists where the gcd check passed. -/
theorem modInverse_26_of_gcd {a : Nat} (h : euclidGcd a Config.affineModulus = 1) :
    ∃ x, modInverse a Config.affineModulus = some x := by
  rw [euclidGcd_eq_gcd] at h
  obtain ⟨h1, h2, h3⟩ := inverseCandidate_spec a Config.affineModulus (by decide) h
  exact ⟨_, (modInverse_eq_some_iff _ _ _).2 ⟨h1, h2, h3⟩⟩

/-- R86: the two ways MODINV ends. -/
theorem Block.modinv_cases (b : Block W) :
    b.modinv = b.fail .noInverse ∨ ∃ x, b.modinv = b.succeed x := by
  simp only [Block.modinv]
  split
  · exact .inl rfl
  · exact .inr ⟨_, rfl⟩

/-- R89: the two ways MODPOW ends. -/
theorem Block.modpow_cases (b : Block W) :
    b.modpow = b.fail .divZero ∨ ∃ x, b.modpow = b.succeed x := by
  simp only [Block.modpow]
  split
  · exact .inl rfl
  · exact .inr ⟨_, rfl⟩

/-- R100: the two ways AFF.KEY ends; NO_INVERSE is not among them. -/
theorem Block.affKey_cases (b : Block W) :
    b.affKey = b.dropAff.fail .invalidKey ∨
    ∃ x, b.affKey = (b.setAff b.op0 b.op1 (Word.ofNat x) true).succeed x := by
  simp only [Block.affKey]
  split
  · exact .inl rfl
  · rename_i h
    obtain ⟨x, hx⟩ := modInverse_26_of_gcd (not_not.1 h)
    simp only [hx]
    exact .inr ⟨x, rfl⟩

/-- R120: the ways RSA.KEY ends. -/
theorem Block.rsaKey_cases (b : Block W) :
    (∃ e, (e = .invalidKey ∨ e = .noInverse ∨ e = .range) ∧ b.rsaKey = (b.dropRsa.fail e)) ∨
    ∃ n phi d, b.rsaKey =
      (b.setRsa b.op0 b.op1 b.op2 n phi (Word.ofNat d) true).succeed d := by
  simp only [Block.rsaKey]
  split
  · exact .inl ⟨_, .inl rfl, rfl⟩
  · split
    · exact .inl ⟨_, .inl rfl, rfl⟩
    · split
      · exact .inl ⟨_, .inr (.inr rfl), rfl⟩
      · split
        · exact .inl ⟨_, .inr (.inl rfl), rfl⟩
        · exact .inr ⟨_, _, _, rfl⟩

/-- R122: the ways RSA.ENC ends. -/
theorem Block.rsaEnc_cases (b : Block W) :
    (∃ e, (e = .noKey ∨ e = .operand) ∧ b.rsaEnc = b.fail e) ∨
    ∃ x, b.rsaEnc = b.succeed x := by
  simp only [Block.rsaEnc]
  split
  · exact .inl ⟨_, .inl rfl, rfl⟩
  · split
    · exact .inl ⟨_, .inr rfl, rfl⟩
    · exact .inr ⟨_, rfl⟩

/-- R124: the two ways RSA.DEC ends. -/
theorem Block.rsaDec_cases (b : Block W) :
    b.rsaDec = b.fail .noKey ∨ ∃ x, b.rsaDec = b.succeed x := by
  simp only [Block.rsaDec]
  split
  · exact .inl rfl
  · exact .inr ⟨_, rfl⟩

/-- The number a word holds, where it fits (R88). -/
theorem toNat_ofNat_of_lt {n : Nat} (h : n < 2 ^ W.bits) : (Word.ofNat n : Word W).toNat = n := by
  rw [BitVec.toNat_ofNat, Nat.mod_eq_of_lt h]

/-- R5, R88: what is below 256 fits any width. -/
theorem fits_of_lt_256 {n : Nat} (h : n < 256) : n < 2 ^ W.bits :=
  lt_of_lt_of_le h (Nat.pow_le_pow_right (n := 2) (i := 8) (by decide) (le_trans (by decide) W.atLeast))

theorem letter_fits {x : Nat} (h : x < 26) : letter x < 2 ^ W.bits :=
  fits_of_lt_256 (by rw [letter]; omega)

end Sys2Proof.Machine
end

