-- ==== Sys2Proof/Laws/Flags.lean ====
section
/-! SUPPORT. Laws of the STATUS word, bit by bit (R14). -/

namespace Sys2Proof.Machine

/-- A flag's word has the flag in its bit and 0 elsewhere. -/
theorem flagAt_getLsbD {W : Width} (b : Bool) (k j : Nat) (hk : k < W.bits) :
    (flagAt b k : Word W).getLsbD j = (decide (j = k) && b) := by
  rw [flagAt, BitVec.getLsbD_shiftLeft, BitVec.getLsbD_setWidth, BitVec.getLsbD_ofBool]
  by_cases h : j = k
  · subst h
    simp [hk, show 0 < W.bits by omega]
  · rcases Nat.lt_or_ge j k with h' | h'
    · simp [h, h']
    · simp [h, show j - k ≠ 0 by omega]

/-- The error field stands in bits 11:8. -/
theorem errField_getLsbD {W : Width} (e : BitVec 4) (j : Nat) :
    (e.setWidth W.bits <<< 8).getLsbD j = (decide (8 ≤ j) && e.getLsbD (j - 8)) := by
  have hW := W.atLeast
  rw [BitVec.getLsbD_shiftLeft, BitVec.getLsbD_setWidth]
  rcases Nat.lt_or_ge j 8 with h | h
  · simp [h, Nat.not_le.2 h]
  · rcases Nat.lt_or_ge (j - 8) 4 with h' | h'
    · simp [h, Nat.not_lt.2 h, show j < W.bits by omega, show j - 8 < W.bits by omega]
    · simp [BitVec.getLsbD_of_ge e _ h']

/-- R14, R43: bit `j` of STATUS. -/
theorem Block.statusWord_getLsbD {W : Width} (b : Block W) (j : Nat) :
    b.statusWord.getLsbD j =
      ((decide (8 ≤ j) && b.err.getLsbD (j - 8)) || (decide (j = 4) && b.ovr) || (decide (j = 3) && b.rkv) ||
        (decide (j = 2) && b.akv) || (decide (j = 1) && b.done) || (decide (j = 0) && b.busy)) := by
  have hW := W.atLeast
  simp only [Block.statusWord, BitVec.getLsbD_or, errField_getLsbD,
    flagAt_getLsbD _ _ _ (show 4 < W.bits by omega), flagAt_getLsbD _ _ _ (show 3 < W.bits by omega),
    flagAt_getLsbD _ _ _ (show 2 < W.bits by omega), flagAt_getLsbD _ _ _ (show 1 < W.bits by omega),
    flagAt_getLsbD _ _ _ (show 0 < W.bits by omega)]

/-- What a host's `WAIT` sees (R71). -/
@[simp] theorem Block.statusBusy_statusWord {W : Width} (b : Block W) : statusBusy b.statusWord = b.busy := by
  rw [statusBusy, Block.statusWord_getLsbD]
  simp

end Sys2Proof.Machine
end

