-- ==== Sys2Proof/Laws/PerInstr.lean ====
section
/-! SUPPORT. Statements about every command as syntax, one lemma a command. -/

namespace Sys2Proof.Laws.RoundTrip

/-- The command is well formed, its word decodes to it at every width (R66), and the table's row does too. -/
def Statement (i : Instr) : Prop :=
  i.wellFormed = true ∧ (∀ W : Width, decode (encode i : Word W) = .ok i) ∧
    decodeTableWord Config.refWidth.bits (opcode i).toNat = some i

theorem gcd : Statement .gcd := ⟨rfl, fun _ => decode_encode _, rfl⟩
theorem isprime : Statement .isprime := ⟨rfl, fun _ => decode_encode _, rfl⟩
theorem modinv : Statement .modinv := ⟨rfl, fun _ => decode_encode _, rfl⟩
theorem modpow : Statement .modpow := ⟨rfl, fun _ => decode_encode _, rfl⟩
theorem affKey : Statement .affKey := ⟨rfl, fun _ => decode_encode _, rfl⟩
theorem affEnc : Statement .affEnc := ⟨rfl, fun _ => decode_encode _, rfl⟩
theorem affDec : Statement .affDec := ⟨rfl, fun _ => decode_encode _, rfl⟩
theorem affEncc : Statement .affEncc := ⟨rfl, fun _ => decode_encode _, rfl⟩
theorem affDecc : Statement .affDecc := ⟨rfl, fun _ => decode_encode _, rfl⟩
theorem affDrop : Statement .affDrop := ⟨rfl, fun _ => decode_encode _, rfl⟩
theorem rsaKey : Statement .rsaKey := ⟨rfl, fun _ => decode_encode _, rfl⟩
theorem rsaEnc : Statement .rsaEnc := ⟨rfl, fun _ => decode_encode _, rfl⟩
theorem rsaDec : Statement .rsaDec := ⟨rfl, fun _ => decode_encode _, rfl⟩
theorem rsaDrop : Statement .rsaDrop := ⟨rfl, fun _ => decode_encode _, rfl⟩

end Sys2Proof.Laws.RoundTrip
end

