-- ==== Sys2Proof/Laws/Step.lean ====
section
/-! SUPPORT. Laws of one step: what the host's primitives, the host's turn and the engine's turn can do. -/

namespace Sys2Proof.Machine

/-- The indices a host write can act on: CMD, OP0, OP1, OP2 (R44). -/
def Written (i : RegIndex) : Prop := i = 0x0 ∨ i = 0x2 ∨ i = 0x3 ∨ i = 0x4

/-- What a write of `v` to index `i` puts into a block that is not busy (R44). -/
def Stored {W : Width} (b : Block W) (i : RegIndex) (v : Word W) (c : Block W) : Prop :=
  (i = 0x0 ∧ c = b.accept v) ∨ (i = 0x2 ∧ c = b.setOp0 v) ∨ (i = 0x3 ∧ c = b.setOp1 v) ∨ (i = 0x4 ∧ c = b.setOp2 v)

/-- R44, R45: everything a host write can do. -/
theorem Block.regWrite_cases {W : Width} (b : Block W) (i : RegIndex) (v : Word W) :
    b.regWrite i v = b ∨
    (b.busy = true ∧ Written i ∧ b.regWrite i v = b.setOvr) ∨
    (b.busy = false ∧ Stored b i v (b.regWrite i v)) := by
  have hi : ∀ n : Nat, ∀ h : n < 16, i.toNat = n → i = BitVec.ofNatLT n h :=
    fun n h e => BitVec.eq_of_toNat_eq (by simpa using e)
  unfold Block.regWrite Written Stored
  split
  · rename_i h
    have := hi 0 (by decide) h
    cases hb : b.busy <;> simp_all
  · rename_i h
    have := hi 2 (by decide) h
    cases hb : b.busy <;> simp_all
  · rename_i h
    have := hi 3 (by decide) h
    cases hb : b.busy <;> simp_all
  · rename_i h
    have := hi 4 (by decide) h
    cases hb : b.busy <;> simp_all
  · exact .inl rfl

/-- A host write changes the block as `RegWrite` says and the latency fields at most; it leaves them alone on a
block that is busy. -/
theorem State.hostWrite_eq (s : State) (i : RegIndex) (v : Word s.W) :
    ∃ w d, s.hostWrite i v = { s with block := s.block.regWrite i v, wait := w, draws := d } ∧
      (s.block.busy = true → w = s.wait) := by
  rw [State.hostWrite]
  split
  · rename_i h
    exact ⟨_, _, rfl, fun hb => absurd (h.1.symm.trans hb) (by decide)⟩
  · exact ⟨s.wait, s.draws, rfl, fun _ => rfl⟩

/-- R30: a host write that leaves BUSY as it is draws no latency; its whole effect is `RegWrite`'s. -/
theorem State.hostWrite_of_busy_eq {s : State} {i : RegIndex} {v : Word s.W}
    (h : (s.block.regWrite i v).busy = s.block.busy) :
    s.hostWrite i v = s.withBlock (s.block.regWrite i v) := by
  rw [State.hostWrite, if_neg]
  rintro ⟨hb, ht⟩
  exact absurd (ht.symm.trans (h.trans hb)) (by decide)

/-- An acceptance draws the latency of the command (R27, R30). -/
theorem State.hostWrite_of_acceptance {s : State} (h : s.block.busy = false) (v : Word s.W) :
    s.hostWrite 0x0 v = (s.withBlock (s.block.accept v)).drawLatency := by
  have hr : s.block.regWrite 0x0 v = s.block.accept v := if_neg (by rw [h]; decide)
  rw [State.hostWrite, hr, if_pos ⟨h, rfl⟩]

/-- R71: a poll of `WAIT` reads STATUS; it goes on to the next line exactly when BUSY was 0. -/
theorem State.poll_of_busy {s : State} (h : s.block.busy = true) : s.poll = s.logRead 0x1 := by
  have hr : s.block.regRead (regIndex .status) = s.block.statusWord := rfl
  rw [State.poll, hr, Block.statusBusy_statusWord, if_pos h]
  rfl

theorem State.poll_of_not_busy {s : State} (h : s.block.busy = false) : s.poll = (s.logRead 0x1).advance := by
  have hr : s.block.regRead (regIndex .status) = s.block.statusWord := rfl
  rw [State.poll, hr, Block.statusBusy_statusWord, if_neg (by rw [h]; decide)]
  rfl

theorem State.poll_cases (s : State) : s.poll = s.logRead 0x1 ∨ s.poll = (s.logRead 0x1).advance := by
  cases h : s.block.busy with
  | true => exact .inl (State.poll_of_busy h)
  | false => exact .inr (State.poll_of_not_busy h)

/-- The host's next action, where it has one left. -/
theorem State.hostStep_of_action {s : State} {a : HostAction s.W} (h : s.prog[s.index]? = some a) :
    s.hostStep = if s.block.busy then (s.hostAct a).tick else s.hostAct a := by
  rw [State.hostStep, h]

/-- What a host's turn can do to the block: nothing, `RegWrite` (R44), or a reset (R180). -/
inductive HostEffect (s : State) : Block s.W → Prop where
  | none : HostEffect s s.block
  | write {i : RegIndex} {v : Word s.W} : s.prog[s.index]? = some (.write i v) →
      HostEffect s (s.block.regWrite i v)
  | reset : s.prog[s.index]? = some .reset → HostEffect s Block.reset

/-- R42: everything an action of the host can do. The width and the list are never changed, and the latency of
a command in flight is not either. -/
theorem State.hostAct_cases (s : State) {a : HostAction s.W} (h : s.prog[s.index]? = some a) :
    ∃ (b : Block s.W) (ix : Nat) (rd : List (HostRead s.W)) (w d : Nat),
      s.hostAct a = { s with block := b, index := ix, reads := rd, wait := w, draws := d } ∧
      HostEffect s b ∧ s.index ≤ ix ∧ (s.block.busy = true → w = s.wait) := by
  cases a with
  | read i => exact ⟨_, _, _, _, _, rfl, .none, Nat.le_succ _, fun _ => rfl⟩
  | write i v =>
    obtain ⟨w, d, hs, hw⟩ := s.hostWrite_eq i v
    exact ⟨_, _, _, w, d, congrArg State.advance hs, .write h, Nat.le_succ _, hw⟩
  | wait =>
    rcases s.poll_cases with hs | hs
    · exact ⟨_, _, _, _, _, hs, .none, le_rfl, fun _ => rfl⟩
    · exact ⟨_, _, _, _, _, hs, .none, Nat.le_succ _, fun _ => rfl⟩
  | reset => exact ⟨_, _, _, _, _, rfl, .reset h, Nat.le_succ _, fun _ => rfl⟩

/-- R42: everything a host's turn can do. The width and the list are never changed. Where the block is busy and
the list is not exhausted, one access of the drawn latency is used up (R32). -/
theorem State.hostStep_cases (s : State) :
    ∃ (b : Block s.W) (ix : Nat) (rd : List (HostRead s.W)) (w d : Nat),
      s.hostStep = { s with block := b, index := ix, reads := rd, wait := w, draws := d } ∧
      HostEffect s b ∧ s.index ≤ ix ∧ (s.block.busy = true → s.hostDone = false → w = s.wait - 1) := by
  cases h : s.prog[s.index]? with
  | none =>
    refine ⟨s.block, s.index, s.reads, s.wait, s.draws, by rw [State.hostStep, h], .none, le_rfl, fun _ hd => ?_⟩
    exact absurd (List.getElem?_eq_none_iff.1 h) (by simpa [State.hostDone] using hd)
  | some a =>
    obtain ⟨b, ix, rd, w, d, ha, he, hx, hw⟩ := s.hostAct_cases h
    rw [State.hostStep_of_action h, ha]
    split
    · rename_i hb
      exact ⟨b, ix, rd, w - 1, d, rfl, he, hx, fun _ _ => by rw [hw hb]⟩
    · rename_i hb
      exact ⟨b, ix, rd, w, d, rfl, he, hx, fun h => absurd h hb⟩

theorem step_of_hostTurn {s : State} (h : s.engineTurn = false) : step s = .next s.hostStep := by
  rw [step, if_neg (by rw [h]; decide)]

theorem step_of_engineTurn {s : State} (h : s.engineTurn = true) : step s = completionStep s := by
  rw [step, if_pos h]

theorem engineTurn_of_not_busy {s : State} (h : s.block.busy = false) : s.engineTurn = false := by
  rw [State.engineTurn, h, Bool.false_and]

/-- The block's part of the completion step (R31, R66). -/
def Block.complete {W : Width} (b : Block W) : Block W :=
  match decode b.cmd with
  | .ok i => b.effect i
  | .error _ => b.fail .illegal

/-- R31: the completion step is a function of the block alone. -/
theorem completionStep_eq (s : State) : completionStep s = .next (s.withBlock s.block.complete) := by
  rw [completionStep, Block.complete]
  cases decode s.block.cmd with
  | ok i => exact exec_eq i s
  | error e => rfl

/-- R42: everything a step can do: the engine's completion step, or the host's turn. -/
theorem step_cases (s : State) :
    (s.engineTurn = true ∧ step s = .next (s.withBlock s.block.complete)) ∨
    (s.engineTurn = false ∧ step s = .next s.hostStep) := by
  cases h : s.engineTurn with
  | true => exact .inl ⟨rfl, (step_of_engineTurn h).trans (completionStep_eq s)⟩
  | false => exact .inr ⟨rfl, step_of_hostTurn h⟩

end Sys2Proof.Machine
end

