-- ==== Sys2Proof/Laws/Run.lean ====
section
/-! SUPPORT. Laws of a run of several steps through the host's interface, of the lines of a host program,
and of loading another one on the way. -/

namespace Sys2Proof.Machine

theorem hostRun_succ_of_next (M : Host.Core) (k : Nat) (s t : M.State) (h : M.step s = .next t) :
    M.run (k + 1) s = M.run k t := by
  rw [Host.Core.run, h]

theorem hostRun_succ_inv (M : Host.Core) (k : Nat) (s t : M.State) (h : M.run (k + 1) s = .next t) :
    ∃ u, M.step s = .next u ∧ M.run k u = .next t := by
  rw [Host.Core.run] at h
  split at h
  · rename_i u hu
    exact ⟨u, hu, h⟩
  · cases h
  · cases h

theorem core_run_zero (s : State) : core.run 0 s = .next s := rfl

/-- A run starts with a step. -/
theorem core_run_succ_of_next {s t : State} (k : Nat) (h : step s = .next t) :
    core.run (k + 1) s = core.run k t :=
  hostRun_succ_of_next core k s t h

theorem core_run_succ_inv {s t : State} {k : Nat} (h : core.run (k + 1) s = .next t) :
    ∃ u, step s = .next u ∧ core.run k u = .next t :=
  hostRun_succ_inv core k s t h

/-- A run of `k + 1` steps is a run of `k` steps and one step more. -/
theorem core_run_succ_last {s t u : State} {k : Nat} (h : core.run k s = .next t) (hu : step t = .next u) :
    core.run (k + 1) s = .next u := by
  induction k generalizing s with
  | zero =>
    rw [core_run_zero] at h
    cases h
    rw [core_run_succ_of_next 0 hu, core_run_zero]
  | succ k ih =>
    obtain ⟨v, hv, hr⟩ := core_run_succ_inv h
    rw [core_run_succ_of_next (k + 1) hv]
    exact ih hr

/-- A well-formed `WR` is a write of exactly its index and value (R70). -/
theorem expandLine_wr {W : Width} {i v : Nat} (h : (HostLine.wr i v).wellFormed W = true) :
    ∃ (j : RegIndex) (x : Word W), expandLine (.wr i v) = [.write j x] ∧ j.toNat = i ∧ x.toNat = v := by
  simp only [HostLine.wellFormed, indexOk, valueOk, Bool.and_eq_true, decide_eq_true_eq] at h
  exact ⟨_, _, rfl, Nat.mod_eq_of_lt h.1, Nat.mod_eq_of_lt h.2⟩

/-- A well-formed `RD` is a read of exactly its index (R70). -/
theorem expandLine_rd {W : Width} {i : Nat} (h : (HostLine.rd i).wellFormed W = true) :
    ∃ j : RegIndex, expandLine (W := W) (.rd i) = [.read j] ∧ j.toNat = i := by
  simp only [HostLine.wellFormed, indexOk, decide_eq_true_eq] at h
  exact ⟨_, rfl, Nat.mod_eq_of_lt h⟩

end Sys2Proof.Machine

namespace Sys2Proof.Safety

open Sys2Proof.Machine

/-- Another host program leaves a reachable state reachable (R197; log 11). -/
theorem Reachable.loadProgram {s : State} (h : Reachable s) (p : List HostLine) : Reachable (s.loadProgram p) :=
  h.rehost _ _ _

/-- Another host program leaves a ready block ready, with the keys it holds (R197; log 11). -/
theorem Ready.loadProgram {s : State} (h : Ready s) (p : List HostLine) :
    Ready (s.loadProgram p) ∧ (AffKeyed (s.loadProgram p) ↔ AffKeyed s) ∧ (RsaKeyed (s.loadProgram p) ↔ RsaKeyed s) :=
  ⟨⟨h.1.loadProgram p, h.2⟩, Iff.rfl, Iff.rfl⟩

end Sys2Proof.Safety
end

