-- ==== Sys2Proof/Tests/Slice0.lean ====
section
/-! SUPPORT. Tests: values from `95_test_vectors.md` (V<n>, S<n>, P<n>) and from the rules cited, and for every
statement with hypotheses a state that meets them. -/

namespace Sys2Proof.Tests

open Sys2Proof.Machine Sys2Proof.Safety

/-- The width of the spec's vectors. -/
abbrev W32 : Width := Config.refWidth

/-- The least width (R5). -/
abbrev W16 : Width := ⟨16, by decide⟩

/-- The reset block with the three operands given. -/
def opsAt (W : Width) (a b c : Nat) : Block W :=
  { Block.reset with op0 := Word.ofNat a, op1 := Word.ofNat b, op2 := Word.ofNat c }

/-- The same at the width of the spec's vectors. -/
def ops (a b c : Nat) : Block W32 := opsAt W32 a b c

/-- `b` with the affine key of V40, (5, 8). -/
def withAff {W : Width} (b : Block W) : Block W := { b with aff_a := 5, aff_b := 8, aff_ainv := 21, akv := true }

/-- `b` with the affine key of V42, (27, 4000000000). -/
def withBigAff (b : Block W32) : Block W32 := { b with aff_a := 27, aff_b := 4000000000, aff_ainv := 1, akv := true }

/-- `b` with the RSA key of V60, (61, 53, 17). -/
def withRsa {W : Width} (b : Block W) : Block W :=
  { b with rsa_p := 61, rsa_q := 53, rsa_e := 17, rsa_n := 3233, rsa_phi := 3120, rsa_d := 2753, rkv := true }

/-- `b` with the RSA key of V65, (3, 11, 7). -/
def withSmallRsa {W : Width} (b : Block W) : Block W :=
  { b with rsa_p := 3, rsa_q := 11, rsa_e := 7, rsa_n := 33, rsa_phi := 20, rsa_d := 3, rkv := true }

/-- The machine with the block `b` and nothing for the host to do. -/
def st {W : Width} (b : Block W) : State := (State.resetAt W).withBlock b

/-- A command in flight: `w` accepted, `n` host accesses ordered before its completion step. -/
def flying {W : Width} (b : Block W) (w : Word W) (n : Nat) (p : List (HostAction W)) : State :=
  { State.resetAt W with block := b.accept w, wait := n, prog := p }

/-- The host about to perform `p`. -/
def hosting {W : Width} (b : Block W) (p : List (HostAction W)) : State :=
  { State.resetAt W with block := b, prog := p }

/-- RES and ERR after a completion step. -/
def resErr : Host.Outcome State Fault Refusal → Option (Nat × Nat)
  | .next t => some (t.block.res.toNat, t.block.err.toNat)
  | _ => none

/-- A view of the next state. -/
def view {α : Type} (f : State → α) : Host.Outcome State Fault Refusal → Option α
  | .next t => some (f t)
  | _ => none

/-- The affine store as numbers. -/
def affView (t : State) : Bool × Nat × Nat × Nat :=
  (t.block.akv, t.block.aff_a.toNat, t.block.aff_b.toNat, t.block.aff_ainv.toNat)

/-- The RSA store as numbers. -/
def rsaView (t : State) : Bool × List Nat :=
  (t.block.rkv, [t.block.rsa_p.toNat, t.block.rsa_q.toNat, t.block.rsa_e.toNat, t.block.rsa_n.toNat,
    t.block.rsa_phi.toNat, t.block.rsa_d.toNat])

/-! ### Well-formedness: each check refuses an ill-formed term (R70) -/

theorem test_wf_wr_index : (HostLine.wr 16 0).wellFormed W32 = false := by decide
theorem test_wf_wr_value : (HostLine.wr 2 4294967296).wellFormed W32 = false := by decide
theorem test_wf_rd_index : (HostLine.rd 16).wellFormed W32 = false := by decide
theorem test_wf_gcd : (HostLine.gcd 1 4294967296).wellFormed W32 = false := by decide
theorem test_wf_isprime : (HostLine.isprime 4294967296).wellFormed W32 = false := by decide
theorem test_wf_modinv : (HostLine.modinv 4294967296 3).wellFormed W32 = false := by decide
theorem test_wf_modpow : (HostLine.modpow 1 2 4294967296).wellFormed W32 = false := by decide
theorem test_wf_affKey : (HostLine.affKey 1 4294967296).wellFormed W32 = false := by decide
theorem test_wf_affEnc : (HostLine.affEnc 4294967296).wellFormed W32 = false := by decide
theorem test_wf_affDec : (HostLine.affDec 4294967296).wellFormed W32 = false := by decide
theorem test_wf_affEncc : (HostLine.affEncc 4294967296).wellFormed W32 = false := by decide
theorem test_wf_affDecc : (HostLine.affDecc 4294967296).wellFormed W32 = false := by decide
theorem test_wf_rsaKey : (HostLine.rsaKey 4294967296 3 1).wellFormed W32 = false := by decide
theorem test_wf_rsaEnc : (HostLine.rsaEnc 4294967296).wellFormed W32 = false := by decide
theorem test_wf_rsaDec : (HostLine.rsaDec 4294967296).wellFormed W32 = false := by decide
/-- R70 at the least width. -/
theorem test_wf_wr_value16 : (HostLine.wr 2 65536).wellFormed W16 = false := by decide
theorem test_wf_accepts : (HostLine.wr 15 4294967295).wellFormed W32 = true := by decide

/-! ### Decoding: every command's word, bit by bit from R60 and R61, and V83 -/

theorem test_word_gcd : decode (W := W32) 0b00000000000000000000000000000001 = .ok .gcd := by rfl
theorem test_word_isprime : decode (W := W32) 0b00000000000000000000000000000010 = .ok .isprime := by rfl
theorem test_word_modinv : decode (W := W32) 0b00000000000000000000000000000011 = .ok .modinv := by rfl
theorem test_word_modpow : decode (W := W32) 0b00000000000000000000000000000100 = .ok .modpow := by rfl
theorem test_word_affKey : decode (W := W32) 0b00000000000000000000000000010000 = .ok .affKey := by rfl
theorem test_word_affEnc : decode (W := W32) 0b00000000000000000000000000010001 = .ok .affEnc := by rfl
theorem test_word_affDec : decode (W := W32) 0b00000000000000000000000000010010 = .ok .affDec := by rfl
theorem test_word_affEncc : decode (W := W32) 0b00000000000000000000000000010011 = .ok .affEncc := by rfl
theorem test_word_affDecc : decode (W := W32) 0b00000000000000000000000000010100 = .ok .affDecc := by rfl
theorem test_word_affDrop : decode (W := W32) 0b00000000000000000000000000011111 = .ok .affDrop := by rfl
theorem test_word_rsaKey : decode (W := W32) 0b00000000000000000000000000100000 = .ok .rsaKey := by rfl
theorem test_word_rsaEnc : decode (W := W32) 0b00000000000000000000000000100001 = .ok .rsaEnc := by rfl
theorem test_word_rsaDec : decode (W := W32) 0b00000000000000000000000000100010 = .ok .rsaDec := by rfl
theorem test_word_rsaDrop : decode (W := W32) 0b00000000000000000000000000101111 = .ok .rsaDrop := by rfl

/-- V83: none of these words is a command. -/
theorem test_illegal_words :
    ([0x00000000, 0x00000005, 0x0000000F, 0x00000015, 0x0000001E, 0x00000023, 0x0000002E, 0x00000030,
      0x000000FF, 0x00000101, 0x80000001, 0xFFFFFFFF] : List Nat).all
        (fun w => (decodeTableWord 32 w).isNone) = true := by decide

/-- R60, R66 at the least width: the opcode zero-extended to 16 bits, and a word with bit 15 set. -/
theorem test_word16 : decode (W := W16) 0b0000000000100010 = .ok .rsaDec ∧
    decode (W := W16) 0b1000000000100010 = .error .zeroField := ⟨rfl, rfl⟩

/-! ### Commands -/

/-- V4 -/
theorem test_gcd : resErr (exec .gcd (st (ops 1071 462 0))) = some (21, 0) := by decide
/-- V9d -/
theorem test_gcd_large : resErr (exec .gcd (st (ops 4294967295 65537 0))) = some (65537, 0) := by decide
/-- V17: the bound is inclusive -/
theorem test_isprime_square : resErr (exec .isprime (st (ops 25 0 0))) = some (0, 0) := by decide
/-- V19 -/
theorem test_isprime_prime : resErr (exec .isprime (st (ops 61 0 0))) = some (1, 0) := by decide
/-- V29p -/
theorem test_modinv : resErr (exec .modinv (st (ops 2 4294967295 0))) = some (2147483648, 0) := by decide
/-- V29l: the empty range -/
theorem test_modinv_one : resErr (exec .modinv (st (ops 5 1 0))) = some (0, 2) := by decide
/-- V39i: exact intermediates -/
theorem test_modpow : resErr (exec .modpow (st (ops 3 4294967295 4294967291))) = some (243, 0) := by decide
/-- V37: modulus 0 wins over exponent 0 -/
theorem test_modpow_zero : resErr (exec .modpow (st (ops 5 0 0))) = some (0, 6) := by decide
/-- V42: stored unreduced -/
theorem test_affKey : view affView (exec .affKey (st (ops 27 4000000000 0))) = some (true, 27, 4000000000, 1) := by
  decide
/-- V43, with a key valid before (R161) -/
theorem test_affKey_drops : view affView (exec .affKey (st (withAff (ops 13 0 0)))) = some (false, 0, 0, 0) := by decide
/-- V47b: the sum exceeds `2^32` -/
theorem test_affEnc : resErr (exec .affEnc (st (withBigAff (ops 25 0 0)))) = some (21, 0) := by decide
/-- V49a: NO_KEY before OPERAND -/
theorem test_affEnc_noKey : resErr (exec .affEnc (st (ops 26 0 0))) = some (0, 3) := by decide
/-- V46: floor remainder -/
theorem test_affDec : resErr (exec .affDec (st (withAff (ops 3 0 0)))) = some (25, 0) := by decide
/-- V48a -/
theorem test_affDec_operand : resErr (exec .affDec (st (withAff (ops 26 0 0)))) = some (0, 4) := by decide
/-- V52: 'H' gives 'r' -/
theorem test_affEncc : resErr (exec .affEncc (st (withAff (ops 0x48 0 0)))) = some (0x72, 0) := by decide
/-- V57: '{' passes through -/
theorem test_affEncc_other : resErr (exec .affEncc (st (withAff (ops 0x7B 0 0)))) = some (0x7B, 0) := by decide
/-- V58b: 'R' gives 'h' -/
theorem test_affDecc : resErr (exec .affDecc (st (withAff (ops 0x52 0 0)))) = some (0x68, 0) := by decide
/-- V59a -/
theorem test_affDecc_noKey : resErr (exec .affDecc (st (ops 0x21 0 0))) = some (0, 3) := by decide
/-- V81 -/
theorem test_affDrop : view affView (exec .affDrop (st (withAff (ops 1 2 3)))) = some (false, 0, 0, 0) := by decide
/-- V60 -/
theorem test_rsaKey :
    view rsaView (exec .rsaKey (st (ops 61 53 17))) = some (true, [61, 53, 17, 3233, 3120, 2753]) := by decide
/-- V67, with a key valid before (R161) -/
theorem test_rsaKey_noInverse :
    (resErr (exec .rsaKey (st (withRsa (ops 2 2 5)))), view rsaView (exec .rsaKey (st (withRsa (ops 2 2 5)))))
      = (some (0, 2), some (false, [0, 0, 0, 0, 0, 0])) := by decide
/-- R120 with R5: `257 * 257 = 66049` does not fit 16 bits and fits 32; `257` is prime. -/
theorem test_rsaKey_range16 :
    resErr (exec .rsaKey (st (opsAt W16 257 257 3))) = some (0, 5) ∧
    view (fun t => (t.block.rsa_n.toNat, t.block.err.toNat)) (exec .rsaKey (st (opsAt W32 257 257 3)))
      = some (66049, 0) := by decide
/-- V73 -/
theorem test_rsaEnc : resErr (exec .rsaEnc (st (withRsa (ops 65 0 0)))) = some (2790, 0) := by decide
/-- V78 -/
theorem test_rsaEnc_operand : resErr (exec .rsaEnc (st (withRsa (ops 256 0 0)))) = some (0, 4) := by decide
/-- V80: not cut to 8 bits -/
theorem test_rsaDec : resErr (exec .rsaDec (st (withRsa (ops 2 0 0)))) = some (1027, 0) := by decide
/-- V76 -/
theorem test_rsaDec_small : resErr (exec .rsaDec (st (withSmallRsa (ops 29 0 0)))) = some (2, 0) := by decide
/-- V82 -/
theorem test_rsaDrop : view rsaView (exec .rsaDrop (st (withRsa (ops 1 2 3)))) = some (false, [0, 0, 0, 0, 0, 0]) := by
  decide

/-! ### Protocol -/

/-- V91: ILLEGAL first -/
theorem test_illegal : resErr (step ((st (ops 26 0 0)).withFetchWord 32 0x111)) = some (0, 7) := by decide
/-- V87 -/
theorem test_acceptance :
    view (fun t => (t.block.cmd.toNat, t.block.busy, t.block.done)) (step (hosting (ops 0 0 0) [.write 0x0 0x01]))
      = some (1, true, false) := by decide
/-- V88 -/
theorem test_dropped :
    view (fun t => (t.block.op0.toNat, t.block.ovr)) (step (flying (ops 12 18 0) 0x01 1 [.write 0x2 5]))
      = some (12, true) := by decide
/-- R14, R43 at the least width: ERR in bits 11:8, OVR, RKV, AKV. -/
theorem test_status_word16 :
    ({ opsAt W16 0 0 0 with ovr := true, rkv := true, akv := true, err := 7 }).statusWord.toNat = 0x71C := by decide
/-- V85 -/
theorem test_read_only :
    view (fun t => (t.block.res.toNat, t.block.ovr)) (step (hosting (ops 0 0 0) [.write 0x5 7]))
      = some (0, false) := by decide
/-- V90: DONE, OVR -/
theorem test_status_word : ({ ops 0 0 0 with done := true, ovr := true }).statusWord = 0x12 := by decide
/-- P6: DONE, RKV, ERR = OPERAND -/
theorem test_status_err :
    ({ ops 0 0 0 with done := true, rkv := true, err := ErrCode.operand.code }).statusWord = 0x40A := by decide
/-- P1's encoding of `GCD 1071, 462` -/
theorem test_expand_gcd :
    expandLine (W := W32) (.gcd 1071 462)
      = [.write 0x2 0x42F, .write 0x3 0x1CE, .write 0x0 0x01, .wait, .read 0x5] := by decide
/-- R123: `format(65)` and `format(1027)` -/
theorem test_format :
    formatMessage 65 = [false, true, false, false, false, false, false, true] ∧
    formatMessage 1027 = [true, false, false, false, false, false, false, false, false, true, true] := by decide

/-! ### Witnesses: states that meet the hypotheses of each statement, at the clauses' edges -/

theorem affInv_of (s : Block W32) (hb : ¬ (s.busy = true ∧ s.done = true)) (he : s.err.toNat ≤ 7)
    (hr : s.rkv = false) (hz : RsaZero s) : Inv (withAff s) :=
  ⟨hb, fun h => absurd h (by simp [withAff]), fun _ => affKeyOk, fun _ => hz,
    fun h => absurd (hr.symm.trans h) (by decide), he⟩
where
  affKeyOk : AffKeyOk (withAff s) :=
    have h : AffKeyOk (withAff (Block.reset : Block W32)) := ⟨by decide, by decide, by decide, by decide⟩
    ⟨h.coprime, h.low, h.high, h.isInverse⟩

theorem rsaInv_of (s : Block W32) (hb : ¬ (s.busy = true ∧ s.done = true)) (he : s.err.toNat ≤ 7)
    (ha : s.akv = false) (hz : AffZero s) : Inv (withRsa s) :=
  ⟨hb, fun _ => hz, fun h => absurd (ha.symm.trans h) (by decide), fun h => absurd h (by simp [withRsa]),
    fun _ => rsaKeyOk, he⟩
where
  rsaKeyOk : RsaKeyOk (withRsa s) :=
    have h : RsaKeyOk (withRsa (Block.reset : Block W32)) :=
      ⟨by decide, by decide, by decide, by decide, by decide, by decide, by decide, by decide, by decide⟩
    ⟨h.pPrime, h.qPrime, h.modulus, h.phi, h.phiLow, h.coprime, h.dLow, h.dHigh, h.isInverse⟩

theorem witness_affKeyed :
    Inv (withAff (ops 25 0 0)) ∧ (withAff (ops 25 0 0)).akv = true ∧ (25 : Word W32).toNat ≤ 25 :=
  ⟨affInv_of _ (by decide) (by decide) rfl ⟨rfl, rfl, rfl, rfl, rfl, rfl⟩, rfl, by decide⟩

theorem witness_rsaKeyed :
    Inv (withRsa (ops 255 0 0)) ∧ (withRsa (ops 255 0 0)).rkv = true ∧
    (withRsa (ops 255 0 0)).rsa_p ≠ (withRsa (ops 255 0 0)).rsa_q ∧ (withRsa (ops 255 0 0)).op0.toNat ≤ 255 ∧
    (255 : Word W32).toNat ≤ 255 ∧ (255 : Word W32).toNat < (withRsa (ops 255 0 0)).rsa_n.toNat :=
  ⟨rsaInv_of _ (by decide) (by decide) rfl ⟨rfl, rfl, rfl⟩, rfl, by decide, by decide, by decide, by decide⟩

theorem witness_rsaKeyed_operand :
    Inv (withRsa (ops 256 0 0)) ∧ (withRsa (ops 256 0 0)).rkv = true ∧ 255 < (withRsa (ops 256 0 0)).op0.toNat :=
  ⟨rsaInv_of _ (by decide) (by decide) rfl ⟨rfl, rfl, rfl⟩, rfl, by decide⟩

theorem reset_inv : Inv State.reset.block :=
  ⟨by decide, fun _ => ⟨rfl, rfl, rfl⟩, fun h => absurd h (by decide), fun _ => ⟨rfl, rfl, rfl, rfl, rfl, rfl⟩,
    fun h => absurd h (by decide), by decide⟩

theorem witness_noRsaKey : Inv State.reset.block ∧ State.reset.block.rkv = false := ⟨reset_inv, rfl⟩

/-- StepKeepsInvariants, ParametersAreFixed and the other statements about a step and its next state. -/
theorem witness_step_keeps :
    Inv State.reset.block ∧ UntouchedIfIdle State.reset.block ∧ step State.reset = .next State.reset :=
  ⟨reset_inv, fun _ _ => ⟨rfl, rfl, rfl, rfl, rfl, rfl⟩, rfl⟩

theorem witness_reachable : Reachable State.reset := .fresh rfl

theorem witness_resetEvent :
    (flying (ops 12 18 0) 0x01 1 [.reset]).engineTurn = false ∧
    (flying (ops 12 18 0) 0x01 1 [.reset]).prog[(flying (ops 12 18 0) 0x01 1 [.reset]).index]? = some .reset ∧
    (flying (ops 12 18 0) 0x01 1 [.reset]).block.busy = true := by decide

theorem witness_isprime : Nat.Prime (ops 61 0 0).op0.toNat ∧ ¬ Nat.Prime (ops 4 0 0).op0.toNat := by
  constructor
  · show Nat.Prime 61
    norm_num
  · show ¬ Nat.Prime 4
    norm_num

theorem witness_modinv :
    (1 ≤ 25 ∧ 25 ≤ (ops 25 26 0).op1.toNat - 1 ∧ (ops 25 26 0).op0.toNat * 25 % (ops 25 26 0).op1.toNat = 1) ∧
    (∀ x : Nat, 1 ≤ x → x ≤ (ops 1 1 0).op1.toNat - 1 → (ops 1 1 0).op0.toNat * x % (ops 1 1 0).op1.toNat ≠ 1) := by
  refine ⟨by decide, fun x h1 h2 => ?_⟩
  have h3 : x ≤ 0 := h2
  omega

theorem witness_modinv_coprime :
    (2 ≤ (ops 1 2 0).op1.toNat ∧ Nat.gcd (ops 1 2 0).op0.toNat (ops 1 2 0).op1.toNat = 1) ∧
    (ops 1 1 0).op1.toNat ≤ 1 ∧ Nat.gcd (ops 0 2 0).op0.toNat (ops 0 2 0).op1.toNat ≠ 1 := by decide

theorem witness_modpow :
    (ops 5 0 0).op2 = 0 ∧ ((ops 5 0 1).op2 ≠ 0 ∧ (ops 5 0 1).op1 = 0) ∧
    ((ops 5 1 1).op2 ≠ 0 ∧ (ops 5 1 1).op1 ≠ 0) := by decide

theorem witness_affKey :
    Nat.gcd (ops 27 0 0).op0.toNat 26 = 1 ∧ Nat.gcd (ops 26 0 0).op0.toNat 26 ≠ 1 ∧
    Nat.gcd (ops 0 0 0).op0.toNat 26 ≠ 1 := by decide

theorem witness_affKeyTable :
    (25, 25) ∈ [(1, 1), (3, 9), (5, 21), (7, 15), (9, 3), (11, 19), (15, 7), (17, 23), (19, 11),
        (21, 5), (23, 17), (25, 25)] ∧ (ops 51 0 0).op0.toNat % 26 = 25 ∧
    (ops 39 0 0).op0.toNat % 26 ∉ [1, 3, 5, 7, 9, 11, 15, 17, 19, 21, 23, 25] := by decide

theorem witness_affPosition :
    (ops 26 0 0).akv = false ∧ ((withAff (ops 26 0 0)).akv = true ∧ 26 ≤ (withAff (ops 26 0 0)).op0.toNat) ∧
    ((withAff (ops 25 0 0)).akv = true ∧ (withAff (ops 25 0 0)).op0.toNat ≤ 25) := by decide

theorem witness_affCharacter :
    (ops 0x41 0 0).akv = false ∧
    ((withAff (ops 0x5A 0 0)).akv = true ∧ 0x41 ≤ (withAff (ops 0x5A 0 0)).op0.toNat ∧
      (withAff (ops 0x5A 0 0)).op0.toNat ≤ 0x5A) ∧
    ((withAff (ops 0x61 0 0)).akv = true ∧ 0x61 ≤ (withAff (ops 0x61 0 0)).op0.toNat ∧
      (withAff (ops 0x61 0 0)).op0.toNat ≤ 0x7A) ∧
    (withAff (ops 0x40 0 0)).op0.toNat < 0x41 ∧
    (0x5A < (withAff (ops 0x5B 0 0)).op0.toNat ∧ (withAff (ops 0x60 0 0)).op0.toNat < 0x61) ∧
    0x7A < (withAff (ops 0x7B 0 0)).op0.toNat := by decide

theorem witness_rsaKey :
    (Nat.Prime (ops 2 3 1).op0.toNat ∧ Nat.Prime (ops 2 3 1).op1.toNat ∧
      Nat.gcd (ops 2 3 1).op2.toNat (((ops 2 3 1).op0.toNat - 1) * ((ops 2 3 1).op1.toNat - 1)) = 1 ∧
      (ops 2 3 1).op0.toNat * (ops 2 3 1).op1.toNat < 2 ^ W32.bits ∧
      ¬ ((ops 2 3 1).op0.toNat = 2 ∧ (ops 2 3 1).op1.toNat = 2)) ∧
    ¬ Nat.Prime (ops 1 53 17).op0.toNat ∧ ¬ Nat.Prime (ops 61 4 17).op1.toNat ∧
    Nat.gcd (ops 2 3 2).op2.toNat (((ops 2 3 2).op0.toNat - 1) * ((ops 2 3 2).op1.toNat - 1)) ≠ 1 ∧
    ((ops 2 2 5).op0.toNat = 2 ∧ (ops 2 2 5).op1.toNat = 2) := by
  refine ⟨⟨?_, ?_, by decide, by decide, by decide⟩, ?_, ?_, by decide, by decide⟩
  · show Nat.Prime 2
    norm_num
  · show Nat.Prime 3
    norm_num
  · show ¬ Nat.Prime 1
    norm_num
  · show ¬ Nat.Prime 4
    norm_num

/-- V68 -/
theorem witness_rsaKey_range :
    Nat.Prime (ops 65537 65537 3).op0.toNat ∧ Nat.Prime (ops 65537 65537 3).op1.toNat ∧
      Nat.gcd (ops 65537 65537 3).op2.toNat
        (((ops 65537 65537 3).op0.toNat - 1) * ((ops 65537 65537 3).op1.toNat - 1)) = 1 ∧
      2 ^ W32.bits ≤ (ops 65537 65537 3).op0.toNat * (ops 65537 65537 3).op1.toNat := by
  refine ⟨?_, ?_, by decide, by decide⟩
  all_goals
    show Nat.Prime 65537
    norm_num

/-- CompletionFrame, ErrorCodesOfEachCommand, ValidFlagFollowsKeyCommand: some command answers a next state. -/
theorem witness_exec : ∃ t, exec .gcd State.reset = .next t := ⟨_, rfl⟩

/-- ErrorLeavesNoPartialResult: a command that fails, one that is a KEY command among them. -/
theorem witness_exec_error :
    (∃ t, exec .rsaEnc State.reset = .next t ∧ t.block.err ≠ 0) ∧
    (∃ t, exec .affKey State.reset = .next t ∧ t.block.err ≠ 0) ∧
    (∃ t, exec .rsaKey State.reset = .next t ∧ t.block.err ≠ 0) :=
  ⟨⟨_, rfl, by decide⟩, ⟨_, rfl, by decide⟩, ⟨_, rfl, by decide⟩⟩

theorem witness_engineTurn :
    ((flying (ops 12 18 0) 0x01 0 [.wait]).block.busy = true ∧ (flying (ops 12 18 0) 0x01 0 [.wait]).wait = 0 ∧
      decode (flying (ops 12 18 0) 0x01 0 [.wait]).block.cmd = .ok .gcd) ∧
    ((flying (ops 12 18 0) 0x01 7 []).block.busy = true ∧
      (flying (ops 12 18 0) 0x01 7 []).prog.length ≤ (flying (ops 12 18 0) 0x01 7 []).index ∧
      decode (flying (ops 12 18 0) 0x01 7 []).block.cmd = .ok .gcd) :=
  ⟨⟨rfl, rfl, rfl⟩, rfl, by decide, rfl⟩

theorem witness_illegalWord :
    (flying (ops 0 0 0) 0x101 0 []).block.busy = true ∧ (flying (ops 0 0 0) 0x101 0 []).wait = 0 ∧
    (flying (ops 0 0 0) 0x101 0 []).block.cmd.toNat ∉
      [0x01, 0x02, 0x03, 0x04, 0x10, 0x11, 0x12, 0x13, 0x14, 0x1F, 0x20, 0x21, 0x22, 0x2F] := by decide

theorem witness_latency :
    (flying (ops 12 18 0) 0x01 2 [.write 0x2 5, .wait, .read 0x5]).block.busy = true ∧
    NoResetAhead (flying (ops 12 18 0) 0x01 2 [.write 0x2 5, .wait, .read 0x5]) := by
  refine ⟨rfl, fun j _ h => ?_⟩
  have hm := List.mem_of_getElem? h
  rcases hm with _ | ⟨_, _ | ⟨_, _ | ⟨_, hm⟩⟩⟩
  cases hm

theorem witness_hostRead :
    (flying (ops 12 18 0) 0x01 1 [.read 0x5]).engineTurn = false ∧
    (flying (ops 12 18 0) 0x01 1 [.read 0x5]).prog[(flying (ops 12 18 0) 0x01 1 [.read 0x5]).index]?
      = some (.read 0x5) := by decide

theorem witness_writes_ready :
    (∀ i : RegIndex, (hosting (ops 0 0 0) [.write i 5]).prog[(hosting (ops 0 0 0) [.write i 5]).index]?
      = some (.write i 5)) ∧ (∀ i : RegIndex, (hosting (ops 0 0 0) [.write i 5]).block.busy = false ∧
        (hosting (ops 0 0 0) [.write i 5]).engineTurn = false) := by decide

theorem witness_writes_busy :
    ∀ i : RegIndex, (flying (ops 0 0 0) 0x01 1 [.write i 5]).block.busy = true ∧
      (flying (ops 0 0 0) 0x01 1 [.write i 5]).engineTurn = false ∧
      (flying (ops 0 0 0) 0x01 1 [.write i 5]).prog[(flying (ops 0 0 0) 0x01 1 [.write i 5]).index]?
        = some (.write i 5) := by decide

theorem witness_wait :
    ((flying (ops 0 0 0) 0x01 1 [.wait]).engineTurn = false ∧ (flying (ops 0 0 0) 0x01 1 [.wait]).block.busy = true ∧
      (flying (ops 0 0 0) 0x01 1 [.wait]).prog[(flying (ops 0 0 0) 0x01 1 [.wait]).index]? = some .wait) ∧
    ((hosting (ops 0 0 0) [.wait]).engineTurn = false ∧ (hosting (ops 0 0 0) [.wait]).block.busy = false ∧
      (hosting (ops 0 0 0) [.wait]).prog[(hosting (ops 0 0 0) [.wait]).index]? = some .wait) := by decide

/-- OvrIsStickyAndHostOnly: a step that clears OVR and a step that sets it. -/
theorem witness_ovr :
    (∃ t, step (hosting { ops 0 0 0 with ovr := true } [.reset]) = .next t ∧ t.block.ovr = false) ∧
    (∃ t, step (flying (ops 0 0 0) 0x01 1 [.write 0x0 2]) = .next t ∧ t.block.ovr = true) :=
  ⟨⟨_, rfl, rfl⟩, ⟨_, rfl, rfl⟩⟩

theorem witness_runOver : RunOver State.reset := ⟨by decide, rfl⟩

end Sys2Proof.Tests
end

section
/-! PROOFS. The state: what the key stores, the completion step, a host write and one step keep, each said once, and
the obligations settled from it. -/

namespace Sys2Proof.Safety

open Sys2Proof.Machine

variable {W : Width} {b c : Block W}

/-! ### The key stores as parts of the invariant -/

/-- The affine store and AKV agree: no key and three zeros, or a key (R34). -/
def AffStoreOk (b : Block W) : Prop := (b.akv = false → AffZero b) ∧ (b.akv = true → AffKeyOk b)

/-- The RSA store and RKV agree: no key and six zeros, or a key (R34). -/
def RsaStoreOk (b : Block W) : Prop := (b.rkv = false → RsaZero b) ∧ (b.rkv = true → RsaKeyOk b)

theorem inv_iff : Inv b ↔
    ¬ (b.busy = true ∧ b.done = true) ∧ AffStoreOk b ∧ RsaStoreOk b ∧ b.err.toNat ≤ 7 :=
  ⟨fun h => ⟨h.notBoth, ⟨h.affNone, h.affKey⟩, ⟨h.rsaNone, h.rsaKey⟩, h.errRange⟩,
   fun ⟨hn, ⟨ha, hk⟩, ⟨hr, hq⟩, he⟩ => ⟨hn, ha, hk, hr, hq, he⟩⟩

theorem AffStoreOk.of_same (h : AffStoreOk b) (hs : SameAffStore b c) : AffStoreOk c := by
  obtain ⟨hk, ha, hb, hi⟩ := hs
  refine ⟨fun hc => ?_, fun hc => ?_⟩
  · simpa only [AffZero, ha, hb, hi] using h.1 (hk ▸ hc)
  · have key := h.2 (hk ▸ hc)
    exact ⟨ha ▸ key.coprime, hi ▸ key.low, hi ▸ key.high, by rw [ha, hi]; exact key.isInverse⟩

theorem RsaStoreOk.of_same (h : RsaStoreOk b) (hs : SameRsaStore b c) : RsaStoreOk c := by
  obtain ⟨hk, hp, hq, he, hn, hf, hd⟩ := hs
  refine ⟨fun hc => ?_, fun hc => ?_⟩
  · simpa only [RsaZero, hp, hq, he, hn, hf, hd] using h.1 (hk ▸ hc)
  · have key := h.2 (hk ▸ hc)
    constructor <;> simp only [hp, hq, he, hn, hf, hd]
    exacts [key.pPrime, key.qPrime, key.modulus, key.phi, key.phiLow, key.coprime, key.dLow, key.dHigh,
      key.isInverse]

/-- R24: an empty affine store agrees with AKV = 0, however the completion step ends. -/
theorem affStoreOk_dropAff_finish (b : Block W) (v : Word W) (e : ErrCode) : AffStoreOk (b.dropAff.finish v e) :=
  ⟨fun _ => ⟨rfl, rfl, rfl⟩, fun h => absurd h (by simp)⟩

/-- R24: an empty RSA store agrees with RKV = 0, however the completion step ends. -/
theorem rsaStoreOk_dropRsa_finish (b : Block W) (v : Word W) (e : ErrCode) : RsaStoreOk (b.dropRsa.finish v e) :=
  ⟨fun _ => ⟨rfl, rfl, rfl, rfl, rfl, rfl⟩, fun h => absurd h (by simp)⟩

/-- R33: the reset block satisfies the invariants of R34. -/
theorem inv_blockReset : Inv (Block.reset : Block W) where
  notBoth h := absurd h.1 (by simp)
  affNone _ := ⟨rfl, rfl, rfl⟩
  affKey h := absurd h (by simp)
  rsaNone _ := ⟨rfl, rfl, rfl, rfl, rfl, rfl⟩
  rsaKey h := absurd h (by simp)
  errRange := by simp

end Sys2Proof.Safety

namespace Sys2Proof.Machine

open Sys2Proof.Safety

variable {W : Width}

/-! ### What a completion step leaves alone, and what the two KEY commands store -/

/-- R31: the end of a completion step and the registers no completion step touches. -/
structure Completes (b c : Block W) : Prop where
  busy : c.busy = false
  done : c.done = true
  cmd : c.cmd = b.cmd
  op0 : c.op0 = b.op0
  op1 : c.op1 = b.op1
  op2 : c.op2 = b.op2
  ovr : c.ovr = b.ovr
  err : c.err.toNat ≤ 7

theorem Block.completes_finish (b : Block W) (v : Word W) (e : ErrCode) : Completes b (b.finish v e) :=
  ⟨rfl, rfl, rfl, rfl, rfl, rfl, rfl, e.code_toNat_le⟩

theorem Block.completes_effect (i : Instr) (b : Block W) : Completes b (b.effect i) := by
  rcases Block.effect_cases i b with
    ⟨v, e, h⟩ | ⟨x, y, inv, k, v, e, -, h⟩ | ⟨p, q, x, n, phi, d, k, v, e, -, h⟩
  all_goals exact h ▸ ⟨rfl, rfl, rfl, rfl, rfl, rfl, rfl, e.code_toNat_le⟩

/-- R23: only AFF.KEY and AFF.DROP write the affine store. -/
theorem Block.sameAffStore_effect {i : Instr} (hk : i ≠ .affKey) (hd : i ≠ .affDrop) (b : Block W) :
    SameAffStore b (b.effect i) := by
  rcases Block.effect_cases i b with
    ⟨v, e, h⟩ | ⟨x, y, inv, k, v, e, hi, -⟩ | ⟨p, q, x, n, phi, d, k, v, e, -, h⟩
  · exact h ▸ ⟨rfl, rfl, rfl, rfl⟩
  · exact absurd hi (not_or.2 ⟨hk, hd⟩)
  · exact h ▸ ⟨rfl, rfl, rfl, rfl⟩

/-- R23: only RSA.KEY and RSA.DROP write the RSA store. -/
theorem Block.sameRsaStore_effect {i : Instr} (hk : i ≠ .rsaKey) (hd : i ≠ .rsaDrop) (b : Block W) :
    SameRsaStore b (b.effect i) := by
  rcases Block.effect_cases i b with
    ⟨v, e, h⟩ | ⟨x, y, inv, k, v, e, -, h⟩ | ⟨p, q, x, n, phi, d, k, v, e, hi, -⟩
  · exact h ▸ ⟨rfl, rfl, rfl, rfl, rfl, rfl, rfl⟩
  · exact h ▸ ⟨rfl, rfl, rfl, rfl, rfl, rfl, rfl⟩
  · exact absurd hi (not_or.2 ⟨hk, hd⟩)

/-- R100: an `a` that is not coprime to 26 leaves no key. -/
theorem Block.affKey_of_not_coprime {b : Block W} (h : euclidGcd b.operand0 Config.affineModulus ≠ 1) :
    b.affKey = b.dropAff.fail .invalidKey := if_pos h

/-- R100: an `a` coprime to 26 is stored with its inverse. -/
theorem Block.affKey_of_coprime {b : Block W} (h : euclidGcd b.operand0 Config.affineModulus = 1) :
    ∃ x, modInverse b.operand0 Config.affineModulus = some x ∧
      b.affKey = (b.setAff b.op0 b.op1 (Word.ofNat x) true).succeed x := by
  obtain ⟨x, hx⟩ := modInverse_26_of_gcd h
  exact ⟨x, hx, by rw [Block.affKey, if_neg (not_not.2 h), hx]⟩

/-- R100: AFF.KEY leaves a key or an empty store. -/
theorem Block.affStoreOk_affKey (b : Block W) : AffStoreOk b.affKey := by
  by_cases hg : euclidGcd b.operand0 Config.affineModulus = 1
  · obtain ⟨x, hx, h⟩ := Block.affKey_of_coprime hg
    obtain ⟨hlow, hhigh, hinv⟩ := (modInverse_eq_some_iff _ _ _).1 hx
    have hw : (Word.ofNat x : Word W).toNat = x := 
      toNat_ofNat_of_lt (fits_of_lt_256 (lt_of_le_of_lt hhigh (by decide)))
    rw [h]
    exact ⟨fun hk => absurd hk (by simp), fun _ => ⟨hg, hw.symm ▸ hlow, hw.symm ▸ hhigh, hw.symm ▸ hinv⟩⟩
  · rw [Block.affKey_of_not_coprime hg]
    exact affStoreOk_dropAff_finish b 0 .invalidKey

/-- R120: the operands of an RSA.KEY that succeeds, with the inverse `d` it finds. -/
structure RsaKeyFound (b : Block W) (d : Nat) : Prop where
  pPrime : isPrime b.operand0 = true
  qPrime : isPrime b.operand1 = true
  coprime : euclidGcd b.operand2 ((b.operand0 - 1) * (b.operand1 - 1)) = 1
  fits : b.operand0 * b.operand1 < 2 ^ W.bits
  inverse : modInverse b.operand2 ((b.operand0 - 1) * (b.operand1 - 1)) = some d

/-- The block with the key RSA.KEY makes of its operands and the inverse `d` (R120). -/
def Block.withRsaKey (b : Block W) (d : Nat) : Block W :=
  b.setRsa b.op0 b.op1 b.op2 (Word.ofNat (b.operand0 * b.operand1))
    (Word.ofNat ((b.operand0 - 1) * (b.operand1 - 1))) (Word.ofNat d) true

/-- R120: RSA.KEY fails and drops the key, or finds an inverse and stores the key. -/
theorem Block.rsaKey_ends (b : Block W) :
    (∃ e, b.rsaKey = b.dropRsa.fail e) ∨ ∃ d, RsaKeyFound b d ∧ b.rsaKey = (b.withRsaKey d).succeed d := by
  simp only [Block.rsaKey]
  split
  · exact .inl ⟨_, rfl⟩
  next hprime =>
    split
    · exact .inl ⟨_, rfl⟩
    next hgcd =>
      split
      · exact .inl ⟨_, rfl⟩
      next hfits =>
        split
        · exact .inl ⟨_, rfl⟩
        next d hd =>
          simp only [not_or, Bool.not_eq_false] at hprime
          exact .inr ⟨d, ⟨hprime.1, hprime.2, not_not.1 hgcd, not_le.1 hfits, hd⟩, rfl⟩

/-- R34, R88: what RSA.KEY stores is a key, and each of its numbers fits the register it is stored in. -/
theorem RsaKeyFound.keyOk {b : Block W} {d : Nat} (h : RsaKeyFound b d) : RsaKeyOk (b.withRsaKey d) := by
  obtain ⟨hlow, hhigh, hinv⟩ := (modInverse_eq_some_iff _ _ _).1 h.inverse
  have hle : (b.operand0 - 1) * (b.operand1 - 1) ≤ b.operand0 * b.operand1 :=
    Nat.mul_le_mul (Nat.sub_le _ _) (Nat.sub_le _ _)
  have hn : (b.withRsaKey d).rsa_n.toNat = b.operand0 * b.operand1 := toNat_ofNat_of_lt h.fits
  have hphi : (b.withRsaKey d).rsa_phi.toNat = (b.operand0 - 1) * (b.operand1 - 1) :=
    toNat_ofNat_of_lt (lt_of_le_of_lt hle h.fits)
  have hd : (b.withRsaKey d).rsa_d.toNat = d :=
    toNat_ofNat_of_lt (lt_of_le_of_lt (le_trans hhigh (le_trans (Nat.sub_le _ _) hle)) h.fits)
  exact {
    pPrime := h.pPrime
    qPrime := h.qPrime
    modulus := hn
    phi := hphi
    phiLow := by rw [hphi]; omega
    coprime := by rw [hphi]; exact h.coprime
    dLow := by rw [hd]; exact hlow
    dHigh := by rw [hd, hphi]; exact hhigh
    isInverse := by rw [hd, hphi]; exact hinv }

/-- R120: RSA.KEY leaves a key or an empty store. -/
theorem Block.rsaStoreOk_rsaKey (b : Block W) : RsaStoreOk b.rsaKey := by
  rcases b.rsaKey_ends with ⟨e, h⟩ | ⟨d, hf, h⟩
  · rw [h]
    exact rsaStoreOk_dropRsa_finish b 0 e
  · rw [h]
    have hk : RsaStoreOk (b.withRsaKey d) := ⟨fun hk => absurd hk (by simp [Block.withRsaKey]), fun _ => hf.keyOk⟩
    exact hk.of_same ⟨rfl, rfl, rfl, rfl, rfl, rfl, rfl⟩

theorem Block.affStoreOk_effect {b : Block W} (h : AffStoreOk b) (i : Instr) : AffStoreOk (b.effect i) := by
  by_cases hk : i = .affKey
  · exact hk ▸ b.affStoreOk_affKey
  · by_cases hd : i = .affDrop
    · exact hd ▸ affStoreOk_dropAff_finish b (Word.ofNat 0) .ok
    · exact h.of_same (Block.sameAffStore_effect hk hd b)

theorem Block.rsaStoreOk_effect {b : Block W} (h : RsaStoreOk b) (i : Instr) : RsaStoreOk (b.effect i) := by
  by_cases hk : i = .rsaKey
  · exact hk ▸ b.rsaStoreOk_rsaKey
  · by_cases hd : i = .rsaDrop
    · exact hd ▸ rsaStoreOk_dropRsa_finish b (Word.ofNat 0) .ok
    · exact h.of_same (Block.sameRsaStore_effect hk hd b)

/-- R31, R66: the completion step is a command's, or ends in ILLEGAL. -/
theorem Block.complete_cases (b : Block W) :
    (∃ i, decode b.cmd = .ok i ∧ b.complete = b.effect i) ∨ b.complete = b.finish 0 .illegal := by
  rw [Block.complete]
  cases decode b.cmd with
  | ok i => exact .inl ⟨i, rfl, rfl⟩
  | error e => exact .inr rfl

theorem Block.completes_complete (b : Block W) : Completes b b.complete := by
  rcases b.complete_cases with ⟨i, -, h⟩ | h
  · exact h ▸ Block.completes_effect i b
  · exact h ▸ Block.completes_finish b 0 .illegal

theorem completionStep_of_decode {s : State} {i : Instr} (h : decode s.block.cmd = .ok i) :
    completionStep s = exec i s := by rw [completionStep, h]

theorem engineTurn_iff {s : State} :
    s.engineTurn = true ↔ s.block.busy = true ∧ (s.wait = 0 ∨ s.prog.length ≤ s.index) := by
  simp [State.engineTurn, State.hostDone]

/-- R31, R66: where the engine's step is next, it is the completion step of the command in CMD. -/
theorem step_of_decode {s : State} {i : Instr} (ht : s.engineTurn = true) (hd : decode s.block.cmd = .ok i) :
    step s = exec i s := (step_of_engineTurn ht).trans (completionStep_of_decode hd)

/-! ### What a host write leaves alone -/

/-- R44: a host write reaches no key register, and neither ERR nor RES. -/
theorem Block.regWrite_frame (b : Block W) (i : RegIndex) (v : Word W) :
    SameAffStore b (b.regWrite i v) ∧ SameRsaStore b (b.regWrite i v) ∧
      (b.regWrite i v).err = b.err ∧ (b.regWrite i v).res = b.res := by
  rcases b.regWrite_cases i v with h | ⟨-, -, h⟩ | ⟨-, ⟨-, h⟩ | ⟨-, h⟩ | ⟨-, h⟩ | ⟨-, h⟩⟩
  all_goals
    rw [h]
    exact ⟨⟨rfl, rfl, rfl, rfl⟩, ⟨rfl, rfl, rfl, rfl, rfl, rfl, rfl⟩, rfl, rfl⟩

/-- R30, R44: a host write accepts a word, or changes no flag but OVR and leaves CMD alone. -/
theorem Block.regWrite_flags (b : Block W) (i : RegIndex) (v : Word W) :
    ((b.regWrite i v).busy = true ∧ (b.regWrite i v).done = false) ∨
    ((b.regWrite i v).busy = b.busy ∧ (b.regWrite i v).done = b.done ∧ (b.regWrite i v).cmd = b.cmd) := by
  rcases b.regWrite_cases i v with h | ⟨-, -, h⟩ | ⟨-, ⟨-, h⟩ | ⟨-, h⟩ | ⟨-, h⟩ | ⟨-, h⟩⟩
  case inr.inr.inl => exact .inl (by rw [h]; exact ⟨rfl, rfl⟩)
  all_goals exact .inr (by rw [h]; exact ⟨rfl, rfl, rfl⟩)

/-- R45: a host write leaves OVR alone, or sets it, on a busy block and at one of four indices. -/
theorem Block.regWrite_ovr (b : Block W) (i : RegIndex) (v : Word W) :
    (b.regWrite i v).ovr = b.ovr ∨ (b.busy = true ∧ Written i ∧ (b.regWrite i v).ovr = true) := by
  rcases b.regWrite_cases i v with h | ⟨hb, hi, h⟩ | ⟨-, ⟨-, h⟩ | ⟨-, h⟩ | ⟨-, h⟩ | ⟨-, h⟩⟩
  case inr.inl => exact .inr ⟨hb, hi, by rw [h, Block.setOvr_ovr]⟩
  all_goals exact .inl (by simp [h])

/-- R45: on a busy block a host write has no effect but on OVR. -/
theorem Block.regWrite_of_busy {b : Block W} (hb : b.busy = true) (i : RegIndex) (v : Word W) :
    ∃ o, b.regWrite i v = { b with ovr := o } := by
  rcases b.regWrite_cases i v with h | ⟨-, -, h⟩ | ⟨hn, -⟩
  · exact ⟨b.ovr, h⟩
  · exact ⟨true, h⟩
  · exact absurd (hn.symm.trans hb) (by decide)

/-- R44, R45: at the four indices a write to a busy block sets OVR. -/
theorem Block.regWrite_of_written {b : Block W} (hb : b.busy = true) {i : RegIndex} (hi : Written i) (v : Word W) :
    b.regWrite i v = b.setOvr := by
  rcases hi with rfl | rfl | rfl | rfl
  all_goals exact if_pos hb

theorem Stored.written {b c : Block W} {i : RegIndex} {v : Word W} (h : Stored b i v c) : Written i :=
  h.imp And.left (Or.imp And.left (Or.imp And.left And.left))

/-- R44: a write of a read-only or a reserved index is ignored. -/
theorem Block.regWrite_of_not_written {i : RegIndex} (hi : ¬ Written i) (b : Block W) (v : Word W) :
    b.regWrite i v = b := by
  rcases b.regWrite_cases i v with h | ⟨-, hw, -⟩ | ⟨-, hs⟩
  · exact h
  · exact absurd hw hi
  · exact absurd hs.written hi

/-! ### One step, said of the block -/

/-- R42: a step changes the block by the completion step or by the host's action, and nothing else but the host's
index and reads and the latency fields. -/
theorem step_next_cases {s t : State} (h : step s = .next t) :
    ∃ (b : Block s.W) (ix : Nat) (rd : List (HostRead s.W)) (w d : Nat),
      t = { s with block := b, index := ix, reads := rd, wait := w, draws := d } ∧
      ((s.engineTurn = true ∧ b = s.block.complete) ∨ (s.engineTurn = false ∧ HostEffect s b)) := by
  rcases step_cases s with ⟨ht, hs⟩ | ⟨ht, hs⟩
  · rw [hs] at h
    cases h
    exact ⟨_, _, _, _, _, rfl, .inl ⟨ht, rfl⟩⟩
  · obtain ⟨b, ix, rd, w, d, hh, he, -⟩ := s.hostStep_cases
    rw [hs, hh] at h
    cases h
    exact ⟨b, ix, rd, w, d, rfl, .inr ⟨ht, he⟩⟩

/-- A property of the block that the completion step and the host's writes keep, and that holds at reset, is kept
by every step. -/
theorem step_keeps_block (P : ∀ {W : Width}, Block W → Prop) {s t : State} (h : step s = .next t) (hs : P s.block)
    (hcomplete : P s.block.complete) (hwrite : ∀ i v, P (s.block.regWrite i v))
    (hreset : P (Block.reset : Block s.W)) : P t.block := by
  obtain ⟨b, ix, rd, w, d, rfl, ⟨-, rfl⟩ | ⟨-, he⟩⟩ := step_next_cases h
  · exact hcomplete
  · cases he with
    | none => exact hs
    | write _ => exact hwrite _ _
    | reset _ => exact hreset

theorem inv_complete {b : Block W} (h : Inv b) : Inv b.complete := by
  obtain ⟨-, ha, hr, -⟩ := inv_iff.1 h
  have hc := b.completes_complete
  have hn : ¬ (b.complete.busy = true ∧ b.complete.done = true) :=
    fun hb => absurd (hc.busy.symm.trans hb.1) (by decide)
  refine inv_iff.2 ⟨hn, ?_, ?_, hc.err⟩
  · rcases b.complete_cases with ⟨i, -, hi⟩ | hi
    · exact hi ▸ Block.affStoreOk_effect ha i
    · exact ha.of_same (hi ▸ ⟨rfl, rfl, rfl, rfl⟩)
  · rcases b.complete_cases with ⟨i, -, hi⟩ | hi
    · exact hi ▸ Block.rsaStoreOk_effect hr i
    · exact hr.of_same (hi ▸ ⟨rfl, rfl, rfl, rfl, rfl, rfl, rfl⟩)

theorem inv_regWrite {b : Block W} (h : Inv b) (i : RegIndex) (v : Word W) : Inv (b.regWrite i v) := by
  obtain ⟨hn, ha, hr, he⟩ := inv_iff.1 h
  obtain ⟨hsa, hsr, hse, -⟩ := b.regWrite_frame i v
  refine inv_iff.2 ⟨?_, ha.of_same hsa, hr.of_same hsr, hse ▸ he⟩
  rcases b.regWrite_flags i v with ⟨-, hd⟩ | ⟨hb, hd, -⟩
  · simp [hd]
  · rw [hb, hd]
    exact hn

theorem untouchedIfIdle_reset : UntouchedIfIdle (Block.reset : Block W) :=
  fun _ _ => ⟨rfl, rfl, rfl, rfl, rfl, rfl⟩

/-- R16: a completed command leaves DONE 1. -/
theorem untouchedIfIdle_complete (b : Block W) : UntouchedIfIdle b.complete :=
  fun _ hd => absurd (b.completes_complete.done.symm.trans hd) (by decide)

theorem untouchedIfIdle_regWrite {b : Block W} (h : UntouchedIfIdle b) (i : RegIndex) (v : Word W) :
    UntouchedIfIdle (b.regWrite i v) := by
  intro hb hd
  obtain ⟨⟨hakv, -⟩, ⟨hrkv, -⟩, herr, hres⟩ := b.regWrite_frame i v
  rcases b.regWrite_flags i v with ⟨hbusy, -⟩ | ⟨hbusy, hdone, hcmd⟩
  · exact absurd (hb.symm.trans hbusy) (by decide)
  · rw [hbusy] at hb
    have hovr : (b.regWrite i v).ovr = b.ovr :=
      (b.regWrite_ovr i v).resolve_right fun hset => absurd (hb.symm.trans hset.1) (by decide)
    rw [hcmd, hres, herr, hakv, hrkv, hovr]
    exact h hb (hdone ▸ hd)

theorem ErrCode.code_eq_zero_iff (e : ErrCode) : e.code = 0#4 ↔ e = .ok := by
  cases e <;> decide

/-- R17: AKV after AFF.KEY. -/
theorem Block.affKey_akv_iff (b : Block W) : b.affKey.akv = true ↔ b.affKey.err = 0 := by
  rcases b.affKey_cases with h | ⟨x, h⟩
  all_goals
    rw [h]
    simp [ErrCode.code_eq_zero_iff]

/-- R17: RKV after RSA.KEY. -/
theorem Block.rsaKey_rkv_iff (b : Block W) : b.rsaKey.rkv = true ↔ b.rsaKey.err = 0 := by
  rcases b.rsaKey_cases with ⟨e, he, h⟩ | ⟨n, phi, d, h⟩
  · rw [h]
    rcases he with rfl | rfl | rfl
    all_goals simp [ErrCode.code_eq_zero_iff]
  · rw [h]
    simp [ErrCode.code_eq_zero_iff]

/-- R32, R45: a host's turn without a reset, with a command in flight, uses up one access of the latency and has
no effect on the block but on OVR. -/
theorem hostTurn_of_busy {s : State} (hb : s.block.busy = true) (hr : NoResetAhead s) (ht : s.engineTurn = false) :
    ∃ (o : Bool) (ix : Nat) (rd : List (HostRead s.W)) (w d : Nat), s.index ≤ ix ∧ w + 1 = s.wait ∧
      step s = .next { s with
        block := { s.block with ovr := o }, index := ix, reads := rd, wait := w, draws := d } := by
  have hturn : ¬ (s.wait = 0 ∨ s.prog.length ≤ s.index) := fun h =>
    absurd (ht.symm.trans (engineTurn_iff.2 ⟨hb, h⟩)) (by decide)
  obtain ⟨hw, hd⟩ := not_or.1 hturn
  obtain ⟨b, ix, rd, w, d, hs, he, hix, hwait⟩ := s.hostStep_cases
  have hone : w + 1 = s.wait := by
    have := hwait hb (decide_eq_false hd)
    omega
  have hovr : ∃ o, b = { s.block with ovr := o } := by
    cases he with
    | none => exact ⟨s.block.ovr, rfl⟩
    | write _ => exact Block.regWrite_of_busy hb _ _
    | reset hreset => exact absurd hreset (hr s.index le_rfl)
  obtain ⟨o, rfl⟩ := hovr
  exact ⟨o, ix, rd, w, d, hix, hone, (step_of_hostTurn ht).trans (congrArg _ hs)⟩

/-- R18: what the host's action does to OVR: nothing, a reset clears it, or a write to a busy block sets it. -/
theorem HostEffect.ovr_cases {s : State} {b : Block s.W} (h : HostEffect s b) :
    b.ovr = s.block.ovr ∨ (b.ovr = false ∧ s.prog[s.index]? = some .reset) ∨
    (b.ovr = true ∧ s.block.busy = true ∧ ∃ i v, s.prog[s.index]? = some (.write i v) ∧ Written i) := by
  cases h with
  | none => exact .inl rfl
  | @write i v hp =>
    exact (s.block.regWrite_ovr i v).imp_right fun ⟨hb, hi, hovr⟩ => .inr ⟨hovr, hb, i, v, hp, hi⟩
  | reset hp => exact .inr (.inl ⟨rfl, hp⟩)

/-- R23: a completion step keeps the affine store, or it is one of AFF.KEY and AFF.DROP. -/
theorem Block.sameAffStore_complete (b : Block W) :
    SameAffStore b b.complete ∨ decode b.cmd = .ok .affKey ∨ decode b.cmd = .ok .affDrop := by
  rcases b.complete_cases with ⟨i, hd, h⟩ | h
  · by_cases hk : i = .affKey
    · exact .inr (.inl (hk ▸ hd))
    · by_cases hdr : i = .affDrop
      · exact .inr (.inr (hdr ▸ hd))
      · exact .inl (h ▸ b.sameAffStore_effect hk hdr)
  · exact .inl (h ▸ ⟨rfl, rfl, rfl, rfl⟩)

/-- R23: a completion step keeps the RSA store, or it is one of RSA.KEY and RSA.DROP. -/
theorem Block.sameRsaStore_complete (b : Block W) :
    SameRsaStore b b.complete ∨ decode b.cmd = .ok .rsaKey ∨ decode b.cmd = .ok .rsaDrop := by
  rcases b.complete_cases with ⟨i, hd, h⟩ | h
  · by_cases hk : i = .rsaKey
    · exact .inr (.inl (hk ▸ hd))
    · by_cases hdr : i = .rsaDrop
      · exact .inr (.inr (hdr ▸ hd))
      · exact .inl (h ▸ b.sameRsaStore_effect hk hdr)
  · exact .inl (h ▸ ⟨rfl, rfl, rfl, rfl, rfl, rfl, rfl⟩)

/-- R23: the host's action keeps both key stores, or it is a reset. -/
theorem HostEffect.sameStores {s : State} {b : Block s.W} (h : HostEffect s b) :
    (SameAffStore s.block b ∧ SameRsaStore s.block b) ∨ s.prog[s.index]? = some .reset := by
  cases h with
  | none => exact .inl ⟨⟨rfl, rfl, rfl, rfl⟩, ⟨rfl, rfl, rfl, rfl, rfl, rfl, rfl⟩⟩
  | @write i v _ =>
    obtain ⟨ha, hr, -⟩ := s.block.regWrite_frame i v
    exact .inl ⟨ha, hr⟩
  | reset hp => exact .inr hp

/-! ### Reset, the engine's step and the host's writes -/

/-- R33: STATUS reads 0 after reset. -/
@[simp] theorem statusWord_reset : (Block.reset : Block W).statusWord = 0 := by
  apply BitVec.eq_of_getLsbD_eq
  intro j _
  simp [Block.statusWord_getLsbD]

/-- R33: every register reads 0 after reset. -/
theorem regRead_reset (i : RegIndex) : (Block.reset : Block W).regRead i = 0 := by
  unfold Block.regRead
  split
  all_goals simp

/-- A word given by its own number, at its own width, is the word (R68). -/
theorem ofNat_toNat_mod (w : Word W) : (Word.ofNat (w.toNat % 2 ^ W.bits) : Word W) = w := by
  rw [Nat.mod_eq_of_lt w.isLt, Word.ofNat, BitVec.ofNat_toNat, BitVec.setWidth_eq]

/-- R61: the opcode table's word of a command is read as the command. -/
theorem decodeTableWord_encode (i : Instr) :
    decodeTableWord Config.refWidth.bits (encode i : Word Config.refWidth).toNat = some i := by
  rw [decodeTableWord, ofNat_toNat_mod, decode_encode]

/-- R30, R31: an accepted word that decodes to a command runs it in the very next step. -/
theorem step_inFlight_of_decode (s : State) {v : Word s.W} {i : Instr} (hd : decode v = .ok i) :
    step (s.inFlight v) = exec i (s.inFlight v) :=
  step_of_decode (engineTurn_iff.2 ⟨rfl, .inl rfl⟩) hd

/-- R44: the read-only and the reserved indices are not among the four a write acts on. -/
theorem not_written_of_readOnly {i : RegIndex} (h : i = 0x1 ∨ 5 ≤ i.toNat) : ¬ Written i := by
  revert i
  unfold Written
  decide

/-- Where no command is in flight the step is the host's next action. -/
theorem step_of_not_busy_of_action {s : State} {a : HostAction s.W} (hb : s.block.busy = false)
    (ha : s.prog[s.index]? = some a) : step s = .next (s.hostAct a) := by
  rw [step_of_hostTurn (engineTurn_of_not_busy hb), State.hostStep_of_action ha, if_neg (by simp [hb])]

/-! ### The obligations -/

/-- Settles O4: the completion step keeps R34 by what the KEY commands store, a host write by its frame. -/
theorem stepKeepsInvariants : Obligations.StepKeepsInvariants :=
  fun _ _ hinv h => step_keeps_block Inv h hinv (inv_complete hinv) (inv_regWrite hinv) inv_blockReset

/-- Settles O6: a completed command is done, an accepted one busy, and any other write leaves all these alone. -/
theorem idleBlockIsUntouched : Obligations.IdleBlockIsUntouched :=
  ⟨fun _ => untouchedIfIdle_reset, fun s _ hs h =>
    step_keeps_block UntouchedIfIdle h hs (untouchedIfIdle_complete s.block) (untouchedIfIdle_regWrite hs)
      untouchedIfIdle_reset⟩

/-- Settles O30, by the frame of the command's effect on the block. -/
theorem completionFrame : Obligations.CompletionFrame := by
  intro i s t h
  rw [exec_eq] at h
  cases h
  have hc := s.block.completes_effect i
  exact ⟨_, rfl, hc.busy, hc.done, hc.cmd, hc.op0, hc.op1, hc.op2, hc.ovr,
    fun hk hd => s.block.sameAffStore_effect hk hd, fun hk hd => s.block.sameRsaStore_effect hk hd⟩

/-- Settles O33, by the ways each KEY command ends. -/
theorem validFlagFollowsKeyCommand : Obligations.ValidFlagFollowsKeyCommand := by
  intro s t
  refine ⟨fun h => ?_, fun h => ?_⟩
  · rw [exec_eq] at h
    cases h
    exact s.block.affKey_akv_iff
  · rw [exec_eq] at h
    cases h
    exact s.block.rsaKey_rkv_iff

/-- Settles O37, by induction on the drawn latency. -/
theorem acceptedCommandCompletes : Obligations.AcceptedCommandCompletes := by
  intro s hb hr
  induction hn : s.wait generalizing s with
  | zero =>
    exact ⟨0, _, _, _, _, _, s, le_rfl, rfl, rfl, engineTurn_iff.2 ⟨hb, .inl hn⟩⟩
  | succ n ih =>
    cases ht : s.engineTurn with
    | true => exact ⟨0, _, _, _, _, _, s, Nat.zero_le _, rfl, rfl, ht⟩
    | false =>
      obtain ⟨o, ix, rd, w, d, hix, hw, hs⟩ := hostTurn_of_busy hb hr ht
      obtain ⟨k, o', ix', rd', w', d', t, hk, rfl, hrun, hturn⟩ :=
        ih { s with block := { s.block with ovr := o }, index := ix, reads := rd, wait := w, draws := d } hb
          (fun j hj => hr j (le_trans hix hj)) (Nat.succ.inj (hw.trans hn))
      exact ⟨k + 1, o', ix', rd', w', d', _, Nat.succ_le_succ hk, rfl,
        (core_run_succ_of_next k hs).trans hrun, hturn⟩

/-- Settles O41, by the law of STATUS bit by bit. -/
theorem statusWordFields : Obligations.StatusWordFields := by
  intro W b
  simp only [Block.statusWord_getLsbD]
  refine ⟨by simp, by simp, by simp, by simp, by simp, fun k h5 h7 => ?_, fun k hk => ?_, fun k hk => ?_⟩
  · simp [show ¬ 8 ≤ k by omega, show k ≠ 4 by omega, show k ≠ 3 by omega, show k ≠ 2 by omega,
      show k ≠ 1 by omega, show k ≠ 0 by omega]
  · simp [show 8 + k ≠ 4 by omega, show 8 + k ≠ 3 by omega, show 8 + k ≠ 2 by omega, show 8 + k ≠ 1 by omega]
  · simp [b.err.getLsbD_of_ge (k - 8) (by omega), show k ≠ 4 by omega, show k ≠ 3 by omega, show k ≠ 2 by omega,
      show k ≠ 1 by omega, show k ≠ 0 by omega]

/-- Settles O48: the completion step keeps OVR, and of the host's actions a reset clears it and a busy write sets
it. -/
theorem ovrIsStickyAndHostOnly : Obligations.OvrIsStickyAndHostOnly := by
  intro s t h
  obtain ⟨b, ix, rd, w, d, rfl, ⟨-, rfl⟩ | ⟨ht, he⟩⟩ := step_next_cases h
  · simp +contextual [s.block.completes_complete.ovr]
  · rcases he.ovr_cases with hovr | ⟨hovr, hp⟩ | ⟨hovr, hb, hw⟩
    · simp +contextual [hovr]
    · exact ⟨fun _ _ => ⟨ht, hp⟩, fun _ hset => absurd hset (by simp [hovr])⟩
    · exact ⟨fun _ hclear => absurd hclear (by simp [hovr]), fun _ _ => ⟨ht, hb, hw⟩⟩

/-- Settles O49, by what the completion step and the host's action do to the key stores. -/
theorem onlyKeyCommandsWriteKeys : Obligations.OnlyKeyCommandsWriteKeys := by
  intro s t h
  obtain ⟨b, ix, rd, w, d, ht, ⟨hturn, rfl⟩ | ⟨hturn, he⟩⟩ := step_next_cases h
  · exact ⟨_, ix, rd, w, d, ht, s.block.sameAffStore_complete.imp_right fun hc => .inl ⟨hturn, hc⟩,
      s.block.sameRsaStore_complete.imp_right fun hc => .inl ⟨hturn, hc⟩⟩
  · refine ⟨b, ix, rd, w, d, ht, ?_⟩
    rcases he.sameStores with ⟨ha, hr⟩ | hp
    · exact ⟨.inl ha, .inl hr⟩
    · exact ⟨.inr (.inr ⟨hturn, hp⟩), .inr (.inr ⟨hturn, hp⟩)⟩

/-- Settles O52, by the fields a step can change. -/
theorem parametersAreFixed : Obligations.ParametersAreFixed := by
  intro s t h
  obtain ⟨b, ix, rd, w, d, ht, -⟩ := step_next_cases h
  exact ⟨b, ix, rd, w, d, ht⟩

/-- Settles O1, register by register. -/
theorem resetReadsZeroEverywhere : Obligations.ResetReadsZeroEverywhere :=
  fun _ => ⟨regRead_reset, rfl, rfl, rfl, rfl, rfl, rfl⟩

/-- Settles O3. -/
theorem invariantsHoldAtReset : Obligations.InvariantsHoldAtReset := fun _ => inv_blockReset

/-- Settles O34, by the engine's turn and the decoded command. -/
theorem stepRunsTheDecodedCommand : Obligations.StepRunsTheDecodedCommand :=
  fun _ _ hb ht hd => step_of_decode (engineTurn_iff.2 ⟨hb, ht⟩) hd

/-- Settles O35: the word is the table's, and the next step is its command's. -/
theorem acceptedWordRunsItsCommand : Obligations.AcceptedWordRunsItsCommand := by
  intro s i
  refine ⟨decodeTableWord_encode i, ?_⟩
  rw [State.withFetchWord, ofNat_toNat_mod]
  exact step_inFlight_of_decode s (decode_encode i)

/-- Settles O40, by the index written and BUSY. -/
theorem regWriteDoesWhatEachIndexSays : Obligations.RegWriteDoesWhatEachIndexSays := by
  intro W b v
  refine ⟨fun hb => ?_, fun hb i hi => Block.regWrite_of_written hb hi v,
    fun i hi => Block.regWrite_of_not_written (not_written_of_readOnly hi) b v⟩
  have hn : ¬ b.busy = true := by simp [hb]
  exact ⟨if_neg hn, if_neg hn, if_neg hn, if_neg hn⟩

/-- Settles O43: the host's action is an acceptance, which draws a latency. -/
theorem cmdWriteIsAcceptance : Obligations.CmdWriteIsAcceptance := by
  intro s v hb ha
  have hact : s.hostAct (.write 0x0 v) = ((s.withBlock (s.block.accept v)).drawLatency).advance :=
    congrArg State.advance (State.hostWrite_of_acceptance hb v)
  exact ⟨_, _, (step_of_not_busy_of_action hb ha).trans (congrArg _ hact)⟩

end Sys2Proof.Machine
end

section
/-! PROOFS. The host's accesses and the latency: STATUS as a number, the completion step that does not read OVR, the
host's read and its writes in one step, and the obligations settled from them. -/

namespace Sys2Proof.Machine

open Sys2Proof.Safety

variable {W : Width}

/-! ### STATUS as a number -/

/-- A field of STATUS, which its place and the width leave whole (R5, R14). -/
theorem toNat_setWidth_shiftLeft {n k : Nat} (x : BitVec n) (h : n + k ≤ W.bits) :
    (x.setWidth W.bits <<< k).toNat = 2 ^ k * x.toNat := by
  have hlt : 2 ^ k * x.toNat < 2 ^ W.bits := calc
    2 ^ k * x.toNat < 2 ^ k * 2 ^ n := Nat.mul_lt_mul_of_pos_left x.isLt (Nat.two_pow_pos k)
    _ = 2 ^ (n + k) := by rw [← pow_add, Nat.add_comm]
    _ ≤ 2 ^ W.bits := Nat.pow_le_pow_right (by decide) h
  rw [BitVec.toNat_shiftLeft, BitVec.toNat_setWidth_of_le (by omega), Nat.shiftLeft_eq, Nat.mul_comm,
    Nat.mod_eq_of_lt hlt]

/-- A flag joined to a word at the highest of its low zeros: how STATUS is put together (R14). -/
theorem toNat_or_flagAt {x : Word W} {k a : Nat} (f : Bool) (hk : k < W.bits) (hx : x.toNat = 2 ^ (k + 1) * a) :
    (x ||| flagAt f k).toNat = 2 ^ k * (2 * a + f.toNat) := by
  have hf : (flagAt f k : Word W).toNat = 2 ^ k * f.toNat := by
    rw [flagAt, toNat_setWidth_shiftLeft _ (by omega), BitVec.toNat_ofBool]
  have hlt : 2 ^ k * f.toNat < 2 ^ (k + 1) := Nat.mul_lt_mul_of_pos_left f.toNat_lt (Nat.two_pow_pos k)
  rw [BitVec.toNat_or, hx, hf, ← Nat.two_pow_add_eq_or_of_lt hlt]
  ring

/-- R14, R43: the number of STATUS, flag by flag from the error code down. -/
theorem Block.statusWord_toNat (b : Block W) : b.statusWord.toNat =
    256 * b.err.toNat + 16 * b.ovr.toNat + 8 * b.rkv.toNat + 4 * b.akv.toNat + 2 * b.done.toNat + b.busy.toNat := by
  have hW := W.atLeast
  have herr : (b.err.setWidth W.bits <<< 8).toNat = 2 ^ (4 + 1) * (8 * b.err.toNat) := by
    rw [toNat_setWidth_shiftLeft _ (by omega)]
    omega
  have hovr := toNat_or_flagAt b.ovr (by omega) herr
  have hrkv := toNat_or_flagAt b.rkv (by omega) hovr
  have hakv := toNat_or_flagAt b.akv (by omega) hrkv
  have hdone := toNat_or_flagAt b.done (by omega) hakv
  have hbusy := toNat_or_flagAt b.busy (by omega) hdone
  rw [Block.statusWord, hbusy]
  omega

/-! ### No command reads OVR -/

/-- `b` with another OVR, which is all the host's accesses can do to a busy block without a reset (R45). -/
def Block.withOvr (b : Block W) (o : Bool) : Block W := { b with ovr := o }

section WithOvr

variable (b : Block W) (o : Bool)

theorem Block.withOvr_operand0 : (b.withOvr o).operand0 = b.operand0 := rfl
theorem Block.withOvr_operand1 : (b.withOvr o).operand1 = b.operand1 := rfl
theorem Block.withOvr_operand2 : (b.withOvr o).operand2 = b.operand2 := rfl

theorem Block.modinv_withOvr : (b.withOvr o).modinv = b.modinv.withOvr o := by
  simp only [Block.modinv, Block.withOvr_operand0, Block.withOvr_operand1]
  cases modInverse b.operand0 b.operand1
  · rfl
  · rfl

theorem Block.modpow_withOvr : (b.withOvr o).modpow = b.modpow.withOvr o := by
  simp only [Block.modpow, apply_ite (Block.withOvr · o)]
  rfl

theorem Block.affKey_withOvr : (b.withOvr o).affKey = b.affKey.withOvr o := by
  simp only [Block.affKey, Block.withOvr_operand0, apply_ite (Block.withOvr · o)]
  cases modInverse b.operand0 Config.affineModulus
  · rfl
  · rfl

theorem affPosition_withOvr (f : Nat → Nat) : affPosition (b.withOvr o) f = (affPosition b f).withOvr o := by
  simp only [affPosition, apply_ite (Block.withOvr · o)]
  rfl

theorem affCharacter_withOvr (f : Nat → Nat) : affCharacter (b.withOvr o) f = (affCharacter b f).withOvr o := by
  simp only [affCharacter, apply_ite (Block.withOvr · o)]
  rfl

theorem Block.rsaKey_withOvr : (b.withOvr o).rsaKey = b.rsaKey.withOvr o := by
  simp only [Block.rsaKey, Block.withOvr_operand0, Block.withOvr_operand1, Block.withOvr_operand2,
    apply_ite (Block.withOvr · o)]
  cases modInverse b.operand2 ((b.operand0 - 1) * (b.operand1 - 1))
  · rfl
  · rfl

theorem Block.rsaEnc_withOvr : (b.withOvr o).rsaEnc = b.rsaEnc.withOvr o := by
  simp only [Block.rsaEnc, apply_ite (Block.withOvr · o)]
  rfl

theorem Block.rsaDec_withOvr : (b.withOvr o).rsaDec = b.rsaDec.withOvr o := by
  simp only [Block.rsaDec, apply_ite (Block.withOvr · o)]
  rfl

/-- R46: a command's effect neither depends on OVR nor changes it. -/
theorem Block.effect_withOvr (i : Instr) : (b.withOvr o).effect i = (b.effect i).withOvr o := by
  cases i with
  | gcd => rfl
  | isprime => rfl
  | modinv => exact b.modinv_withOvr o
  | modpow => exact b.modpow_withOvr o
  | affKey => exact b.affKey_withOvr o
  | affEnc => exact affPosition_withOvr b o _
  | affDec => exact affPosition_withOvr b o _
  | affEncc => exact affCharacter_withOvr b o _
  | affDecc => exact affCharacter_withOvr b o _
  | affDrop => rfl
  | rsaKey => exact b.rsaKey_withOvr o
  | rsaEnc => exact b.rsaEnc_withOvr o
  | rsaDec => exact b.rsaDec_withOvr o
  | rsaDrop => rfl

/-- R46: the completion step neither depends on OVR nor changes it. -/
theorem Block.complete_withOvr : (b.withOvr o).complete = b.complete.withOvr o := by
  have hcmd : (b.withOvr o).cmd = b.cmd := rfl
  rw [Block.complete, Block.complete, hcmd]
  cases decode b.cmd with
  | ok i => exact b.effect_withOvr o i
  | error e => rfl

end WithOvr

/-! ### The host's next action as a step -/

/-- Where the host is to act, the step is its next action, but for the latency field (R42; log 2). -/
theorem exists_step_of_action {s : State} {a : HostAction s.W} (ht : s.engineTurn = false)
    (ha : s.prog[s.index]? = some a) : ∃ w, step s = .next { s.hostAct a with wait := w } := by
  rw [step_of_hostTurn ht, State.hostStep_of_action ha]
  split
  · exact ⟨_, rfl⟩
  · exact ⟨_, rfl⟩

/-- R44, R45: a host write that is no acceptance changes the block as `RegWrite` says and moves the index on. -/
theorem State.hostAct_write_of_busy_eq {s : State} {i : RegIndex} {v : Word s.W} {c : Block s.W}
    (hc : s.block.regWrite i v = c) (hb : c.busy = s.block.busy) :
    s.hostAct (.write i v) = (s.withBlock c).advance := by
  subst hc
  exact congrArg State.advance (State.hostWrite_of_busy_eq hb)

/-- The same as a step of a state where no command is in flight. -/
theorem step_write_of_not_busy {s : State} {i : RegIndex} {v : Word s.W} {c : Block s.W} (hs : s.block.busy = false)
    (ha : s.prog[s.index]? = some (.write i v)) (hc : s.block.regWrite i v = c) (hb : c.busy = s.block.busy) :
    step s = .next (s.withBlock c).advance := by
  rw [step_of_not_busy_of_action hs ha, State.hostAct_write_of_busy_eq hc hb]

/-- The same as a step of any state where the host is to act. -/
theorem exists_step_of_write {s : State} {i : RegIndex} {v : Word s.W} {c : Block s.W} (ht : s.engineTurn = false)
    (ha : s.prog[s.index]? = some (.write i v)) (hc : s.block.regWrite i v = c) (hb : c.busy = s.block.busy) :
    ∃ w, step s = .next { (s.withBlock c).advance with wait := w } := by
  obtain ⟨w, hs⟩ := exists_step_of_action ht ha
  rw [State.hostAct_write_of_busy_eq hc hb] at hs
  exact ⟨w, hs⟩

/-! ### The obligations -/

/-- Settles O38: the run reaches the engine's turn with the block changed in OVR at most, which the completion step
does not read. -/
theorem resultIndependentOfLatency : Obligations.ResultIndependentOfLatency := by
  intro s hb hr
  obtain ⟨k, o, ix, rd, w, d, t, hk, rfl, hrun, hturn⟩ := acceptedCommandCompletes s hb hr
  have hlast := (step_of_engineTurn hturn).trans (completionStep_eq _)
  have hc := s.block.completes_complete
  have hovr : ({ s.block with ovr := o } : Block s.W).complete = { s.block.complete with ovr := o } :=
    s.block.complete_withOvr o
  refine ⟨k, s.block.complete, o, ix, rd, w, d, hk, completionStep_eq s, hc.busy, hc.done, ?_⟩
  rw [← hovr]
  exact core_run_succ_last hrun hlast

/-- Settles O39, register by register; STATUS by its number. -/
theorem regReadReturnsEachRegister : Obligations.RegReadReturnsEachRegister :=
  fun _ b => ⟨rfl, b.statusWord_toNat, rfl, rfl, rfl, rfl, rfl, rfl, rfl, rfl, rfl, rfl, rfl, rfl, rfl, rfl⟩

/-- Settles O42: a read's action records the value and moves the index on. -/
theorem hostReadHasNoSideEffect : Obligations.HostReadHasNoSideEffect :=
  fun _ _ ht ha => exists_step_of_action ht ha

/-- Settles O44, by what a write of each operand index does to a block that is not busy. -/
theorem operandWriteSetsTheRegister : Obligations.OperandWriteSetsTheRegister := by
  intro s v hb
  obtain ⟨-, h0, h1, h2⟩ := (regWriteDoesWhatEachIndexSays s.W s.block v).1 hb
  exact ⟨fun ha => step_write_of_not_busy hb ha h0 rfl, fun ha => step_write_of_not_busy hb ha h1 rfl,
    fun ha => step_write_of_not_busy hb ha h2 rfl⟩

/-- Settles O45: the write sets OVR, and BUSY stays, so no latency is drawn. -/
theorem busyWriteIsDroppedAndRecorded : Obligations.BusyWriteIsDroppedAndRecorded :=
  fun _ _ v hb ht hi ha => exists_step_of_write ht ha (Block.regWrite_of_written hb hi v) rfl

/-- Settles O46: the index is none of the four a write acts on. -/
theorem readOnlyWriteHasNoEffect : Obligations.ReadOnlyWriteHasNoEffect :=
  fun s _ v ht hi ha =>
    exists_step_of_write ht ha (Block.regWrite_of_not_written (not_written_of_readOnly hi) s.block v) rfl

end Sys2Proof.Machine
end

section
/-! PROOFS. The encoding: the three things a word can be, said once, and the obligations settled from it; a poll of
`WAIT` as a step. -/

namespace Sys2Proof

variable {W : Width}

/-! ### What a word decodes to -/

/-- The commands of the opcode table, in its order (R61). -/
def Instr.all : List Instr :=
  [.gcd, .isprime, .modinv, .modpow, .affKey, .affEnc, .affDec, .affEncc, .affDecc, .affDrop,
    .rsaKey, .rsaEnc, .rsaDec, .rsaDrop]

theorem Instr.mem_all (i : Instr) : i ∈ Instr.all := by
  cases i <;> decide

/-- The numbers of the fourteen assigned opcodes (R61). -/
def opcodes : List Nat := [0x01, 0x02, 0x03, 0x04, 0x10, 0x11, 0x12, 0x13, 0x14, 0x1F, 0x20, 0x21, 0x22, 0x2F]

theorem opcodes_eq_map_all : opcodes = Instr.all.map fun i => (opcode i).toNat := rfl

/-- R61: the assigned opcodes are those of the commands. -/
theorem mem_opcodes_iff {n : Nat} : n ∈ opcodes ↔ ∃ i, (opcode i).toNat = n := by
  simp [opcodes_eq_map_all, Instr.mem_all]

theorem encode_toNat_mem_opcodes (i : Instr) : (encode i : Word W).toNat ∈ opcodes :=
  mem_opcodes_iff.2 ⟨i, (encode_toNat i).symm⟩

theorem encode_toNat_lt (i : Instr) : (encode i : Word W).toNat < 2 ^ 8 := by
  rw [encode_toNat]
  exact (opcode i).isLt

/-- R61: a word is a command's exactly when its number is an assigned opcode. -/
theorem toNat_mem_opcodes_iff {w : Word W} : w.toNat ∈ opcodes ↔ ∃ i, w = encode i := by
  refine ⟨fun h => ?_, fun ⟨i, hi⟩ => hi ▸ encode_toNat_mem_opcodes i⟩
  obtain ⟨i, hi⟩ := mem_opcodes_iff.1 h
  exact ⟨i, eq_encode_of_toNat hi.symm⟩

/-- R60: the field `ZERO` is clear exactly in the words below `2^8`. -/
theorem zeroField_eq_zero_iff {w : Word W} : zeroField w = 0 ↔ w.toNat < 2 ^ 8 := by
  rw [← BitVec.toNat_inj, zeroField_toNat]
  exact Nat.div_eq_zero_iff_lt (by decide)

/-- R60: where `ZERO` is clear the word is its opcode field, so a decoded opcode gives the word. -/
theorem eq_encode_of_decodeOpc {w : Word W} {i : Instr} (hlt : w.toNat < 2 ^ 8)
    (h : decodeOpc (opcField w) = some i) : w = encode i := by
  apply eq_encode_of_toNat
  rw [← opcode_of_decodeOpc _ _ h, opcField_toNat]
  exact (Nat.mod_eq_of_lt hlt).symm

/-- R66: everything a word can be: rejected for its high field, a command's word, or rejected for its opcode. -/
theorem decode_cases (w : Word W) :
    (2 ^ 8 ≤ w.toNat ∧ decode w = .error .zeroField) ∨
    (∃ i, w = encode i) ∨
    (w.toNat < 2 ^ 8 ∧ w.toNat ∉ opcodes ∧ decode w = .error .opcode) := by
  by_cases hz : zeroField w = 0
  · have hlt := zeroField_eq_zero_iff.1 hz
    cases hd : decodeOpc (opcField w) with
    | some i => exact .inr (.inl ⟨i, eq_encode_of_decodeOpc hlt hd⟩)
    | none =>
      refine .inr (.inr ⟨hlt, fun hmem => ?_, decode_of_unassigned hz hd⟩)
      obtain ⟨i, rfl⟩ := toNat_mem_opcodes_iff.1 hmem
      simp at hd
  · exact .inl ⟨Nat.not_lt.1 (mt zeroField_eq_zero_iff.2 hz), decode_of_zeroField_ne hz⟩

/-- R66: the decoder reads a command from that command's word alone. -/
theorem decode_eq_ok_iff {w : Word W} {i : Instr} : decode w = .ok i ↔ w = encode i := by
  refine ⟨fun h => ?_, fun h => h ▸ decode_encode i⟩
  rcases decode_cases w with ⟨-, hd⟩ | ⟨j, rfl⟩ | ⟨-, -, hd⟩
  · cases hd.symm.trans h
  · cases (decode_encode j).symm.trans h
    rfl
  · cases hd.symm.trans h

/-- R66: a word whose number is no assigned opcode is rejected. -/
theorem exists_decode_error {w : Word W} (h : w.toNat ∉ opcodes) : ∃ e, decode w = .error e := by
  rcases decode_cases w with ⟨-, hd⟩ | hi | ⟨-, -, hd⟩
  · exact ⟨_, hd⟩
  · exact absurd (toNat_mem_opcodes_iff.2 hi) h
  · exact ⟨_, hd⟩

end Sys2Proof

namespace Sys2Proof.Machine

/-- R66, R157: a word that does not decode completes with ILLEGAL. -/
theorem Block.complete_of_decode_error {W : Width} {b : Block W} {e : Illegal} (h : decode b.cmd = .error e) :
    b.complete = b.fail .illegal := by
  rw [Block.complete, h]

/-! ### The obligations -/

/-- Settles O9, by the three things a word can be: the two rejections decode to no command. -/
theorem decodeIsInverseOfEncode : Obligations.DecodeIsInverseOfEncode := fun _ _ _ => decode_eq_ok_iff

/-- Settles O10: in each of the three things a word can be, at most one rejection holds, and so does its clause. -/
theorem allOtherWordsAreIllegal : Obligations.AllOtherWordsAreIllegal := by
  intro W w
  rcases decode_cases w with ⟨hge, hd⟩ | ⟨i, rfl⟩ | ⟨hlt, hmem, hd⟩
  · exact ⟨iff_of_true hd hge, iff_of_false (by simp [hd]) fun h => absurd h.1 (Nat.not_lt.2 hge)⟩
  · exact ⟨iff_of_false (by simp) (Nat.not_le.2 (encode_toNat_lt i)),
      iff_of_false (by simp) fun h => h.2 (encode_toNat_mem_opcodes i)⟩
  · exact ⟨iff_of_false (by simp [hd]) (Nat.not_le.2 hlt), iff_of_true hd ⟨hlt, hmem⟩⟩

/-- Settles O36: the engine's step is next, and the word does not decode. -/
theorem illegalWordCompletesWithIllegal : Obligations.IllegalWordCompletesWithIllegal := by
  intro s hb ht hmem
  obtain ⟨e, hd⟩ := exists_decode_error hmem
  have hturn : s.engineTurn = true := engineTurn_iff.2 ⟨hb, ht⟩
  rw [step_of_engineTurn hturn, completionStep_eq, Block.complete_of_decode_error hd]
  rfl

/-- Settles O8: each of the words is the encoder's word of its command at the reference width. -/
theorem specWordsDecode : Obligations.SpecWordsDecode :=
  ⟨decode_encode .gcd, decode_encode .modinv, decode_encode .affKey, decode_encode .affDecc,
    decode_encode .affDrop, decode_encode .rsaKey, decode_encode .rsaDec, decode_encode .rsaDrop⟩

/-- Settles O47, by what a poll does on a busy block, where the drawn latency goes down, and on one that is not. -/
theorem waitPollsUntilNotBusy : Obligations.WaitPollsUntilNotBusy := by
  intro s ht ha
  refine ⟨fun hb => ?_, fun hb => ?_⟩
  · have hpoll : s.hostAct .wait = s.logRead 0x1 := State.poll_of_busy hb
    obtain ⟨w, hs⟩ := exists_step_of_action ht ha
    rw [hpoll] at hs
    exact ⟨w, hs⟩
  · have hpoll : s.hostAct .wait = (s.logRead 0x1).advance := State.poll_of_not_busy hb
    exact (step_of_not_busy_of_action hb ha).trans (congrArg _ hpoll)

end Sys2Proof.Machine
end

section
/-! PROOFS. Group 0, the arithmetic primitives: how a command that succeeds and one that fails complete, each said
once; the outcomes of MODINV and MODPOW; and the obligations settled from them. -/

namespace Sys2Proof.Machine

variable {W : Width}

/-! ### Command words by their number, and the two ways a command ends -/

/-- R61, R66: the number of a command's opcode, zero-extended, decodes to the command at every width. -/
theorem decode_ofNat_opcode (i : Instr) : decode (Word.ofNat (opcode i).toNat : Word W) = .ok i :=
  decode_eq_ok_iff.2 (eq_encode_of_toNat (toNat_ofNat_of_lt (fits_of_lt_256 (opcode i).isLt)))

theorem toNat_eq_zero_iff {w : Word W} : w.toNat = 0 ↔ w = 0 :=
  BitVec.toNat_inj (y := 0)

/-- R31: a command that succeeds with a number that fits leaves RES holding that number. -/
theorem exec_of_succeed {i : Instr} {s : State} {n : Nat} (h : s.block.effect i = s.block.succeed n)
    (hn : n < 2 ^ s.W.bits) :
    ∃ v : Word s.W, v.toNat = n ∧ exec i s = .next (s.withBlock (s.block.finish v .ok)) :=
  ⟨Word.ofNat n, toNat_ofNat_of_lt hn, by rw [exec_eq, h, Block.succeed]⟩

/-- R160: a command that fails leaves RES 0 and the code of its error. -/
theorem exec_of_fail {i : Instr} {s : State} {e : ErrCode} (h : s.block.effect i = s.block.fail e) :
    exec i s = .next (s.withBlock (s.block.finish 0 e)) := by
  rw [exec_eq, h, Block.fail]

/-! ### The results fit a register (R88) -/

theorem gcd_lt_of_lt {a b k : Nat} (ha : a < k) (hb : b < k) : Nat.gcd a b < k := by
  rcases Nat.eq_zero_or_pos b with rfl | hpos
  · rwa [Nat.gcd_zero_right]
  · exact (Nat.gcd_le_right a hpos).trans_lt hb

/-- R87, R88: the power is 1 or below the modulus. -/
theorem modPow_fits {base exp : Nat} {m : Word W} (hm : m.toNat ≠ 0) :
    modPow base exp m.toNat < 2 ^ W.bits := by
  have hle : modPow base exp m.toNat ≤ max 1 (m.toNat - 1) := modPow_le base exp m.toNat (Nat.pos_of_ne_zero hm)
  have hone : 1 < 2 ^ W.bits := fits_of_lt_256 (by decide)
  have hlt := m.isLt
  omega

/-! ### MODINV and MODPOW, outcome by outcome -/

/-- R85, R86: where `x` is the inverse in `[1, m-1]`, MODINV succeeds with it. -/
theorem exec_modinv_of_inverse {s : State} {x : Nat} (hlow : 1 ≤ x) (hhigh : x ≤ s.block.operand1 - 1)
    (hinv : s.block.operand0 * x % s.block.operand1 = 1) :
    ∃ v : Word s.W, v.toNat = x ∧ exec .modinv s = .next (s.withBlock (s.block.finish v .ok)) := by
  have hx : modInverse s.block.operand0 s.block.operand1 = some x :=
    (modInverse_eq_some_iff _ _ _).2 ⟨hlow, hhigh, hinv⟩
  refine exec_of_succeed ?_ ((hhigh.trans (Nat.sub_le _ _)).trans_lt s.block.op1.isLt)
  rw [Block.effect, Block.modinv, hx]

/-- R85, R86: where there is no inverse MODINV fails. -/
theorem exec_modinv_of_none {s : State} (h : modInverse s.block.operand0 s.block.operand1 = none) :
    exec .modinv s = .next (s.withBlock (s.block.finish 0 .noInverse)) :=
  exec_of_fail (by rw [Block.effect, Block.modinv, h])

/-- R89: a modulus of 0 fails, whatever the other operands are. -/
theorem exec_modpow_of_zero {s : State} (h : s.block.operand2 = 0) :
    exec .modpow s = .next (s.withBlock (s.block.finish 0 .divZero)) :=
  exec_of_fail (if_pos h)

/-- R89: any other modulus gives the value of `mod_pow`. -/
theorem exec_modpow_of_ne_zero {s : State} (h : s.block.operand2 ≠ 0) :
    ∃ v : Word s.W, v.toNat = modPow s.block.operand0 s.block.operand1 s.block.operand2 ∧
      exec .modpow s = .next (s.withBlock (s.block.finish v .ok)) :=
  exec_of_succeed (if_neg h) (modPow_fits h)

/-! ### The obligations -/

/-- Settles O11: the Euclidean loop gives the greatest common divisor, which fits because the operands do. -/
theorem gcdGivesGreatestCommonDivisor : Obligations.GcdGivesGreatestCommonDivisor := by
  refine ⟨fun _ => decode_ofNat_opcode .gcd,
    fun s => exec_of_succeed ?_ (gcd_lt_of_lt s.block.op0.isLt s.block.op1.isLt)⟩
  rw [Block.effect, Block.gcd, euclidGcd_eq_gcd]

/-- Settles O12: trial division decides primality. -/
theorem isprimeDecidesPrimality : Obligations.IsprimeDecidesPrimality := by
  refine ⟨fun _ => decode_ofNat_opcode .isprime, fun s => ⟨fun hp => ?_, fun hp => ?_⟩⟩
  · rw [exec_eq, Block.effect, Block.isprime, if_pos ((isPrime_iff_prime _).2 hp)]
    rfl
  · rw [exec_eq, Block.effect, Block.isprime, if_neg (mt (isPrime_iff_prime _).1 hp)]
    rfl

/-- Settles O13: a number with the inverse's property is what MODINV answers, and without one it answers none. -/
theorem modinvGivesTheInverseOrFails : Obligations.ModinvGivesTheInverseOrFails := by
  refine ⟨fun _ => decode_ofNat_opcode .modinv, fun s => ⟨fun x => exec_modinv_of_inverse, fun hno => ?_⟩⟩
  refine exec_modinv_of_none (Option.eq_none_iff_forall_ne_some.2 fun x hx => ?_)
  obtain ⟨hlow, hhigh, hinv⟩ := (modInverse_eq_some_iff _ _ _).1 hx
  exact hno x hlow hhigh hinv

/-- Settles O14: coprime to a modulus of at least 2, the candidate is an inverse; otherwise there is none. -/
theorem modinvSucceedsExactlyOnCoprime : Obligations.ModinvSucceedsExactlyOnCoprime := by
  refine fun s => ⟨fun hm hg => ?_, fun hnone => exec_modinv_of_none ((modInverse_eq_none_iff _ _).2 hnone)⟩
  obtain ⟨hlow, hhigh, hinv⟩ := inverseCandidate_spec _ _ hm hg
  obtain ⟨v, hv, hexec⟩ := exec_modinv_of_inverse hlow hhigh hinv
  exact ⟨v, hv ▸ hlow, hv ▸ hhigh, hv ▸ hinv, hexec⟩

/-- Settles O15, by the modulus and then the exponent. -/
theorem modpowGivesThePowerOrDivzero : Obligations.ModpowGivesThePowerOrDivzero := by
  refine ⟨fun _ => decode_ofNat_opcode .modpow,
    fun s => ⟨fun hm => exec_modpow_of_zero (toNat_eq_zero_iff.2 hm), fun hm => ?_⟩⟩
  obtain ⟨v, hv, hexec⟩ := exec_modpow_of_ne_zero (mt toNat_eq_zero_iff.1 hm)
  refine ⟨v, fun he => ?_, fun he => ?_, hexec⟩
  · rw [hv, Block.operand1, toNat_eq_zero_iff.2 he, modPow_zero]
  · exact hv.trans (modPow_pos _ _ _ (mt toNat_eq_zero_iff.1 he))

end Sys2Proof.Machine
end

section
/-! PROOFS. Group 1, the affine unit: what AFF.KEY stores, how a transform of a position and one of a character end
with any of the two directions, the two directions as inverses of each other, and the obligations settled from
them. -/

namespace Sys2Proof.Machine

/-! ### AFF.KEY by its two outcomes (R100) -/

/-- R100: where `x` is the inverse modulo 26 in `[1, 25]`, AFF.KEY stores the operands with `x`. -/
theorem exec_affKey_of_inverse {s : State} {x : Nat} (hlow : 1 ≤ x) (hhigh : x ≤ 25)
    (hinv : s.block.operand0 * x % 26 = 1) :
    ∃ v : Word s.W, v.toNat = x ∧ exec .affKey s =
      .next (s.withBlock ((s.block.setAff s.block.op0 s.block.op1 v true).finish v .ok)) := by
  have hgcd : euclidGcd s.block.operand0 Config.affineModulus = 1 :=
    (euclidGcd_eq_gcd _ _).trans (gcd_eq_one_of_inverse hinv)
  obtain ⟨y, hy, hkey⟩ := Block.affKey_of_coprime hgcd
  have hyx : y = x := Option.some_inj.1 (hy.symm.trans ((modInverse_eq_some_iff _ _ _).2 ⟨hlow, hhigh, hinv⟩))
  subst hyx
  exact ⟨Word.ofNat y, toNat_ofNat_of_lt (fits_of_lt_256 (hhigh.trans_lt (by decide))),
    by rw [exec_eq, Block.effect, hkey, Block.succeed]⟩

/-- R100, R161: an `a` not coprime to 26 is no key, and none is left. -/
theorem exec_affKey_of_not_coprime {s : State} (h : Nat.gcd s.block.operand0 26 ≠ 1) :
    exec .affKey s = .next (s.withBlock (s.block.dropAff.finish 0 .invalidKey)) := by
  rw [exec_eq, Block.effect, Block.affKey_of_not_coprime (by rwa [euclidGcd_eq_gcd]), Block.fail]

/-- R110: each `y` of the table is the inverse in `[1, 25]` of its `x`. -/
theorem inverse_of_mem_affTable : ∀ p ∈ [(1, 1), (3, 9), (5, 21), (7, 15), (9, 3), (11, 19), (15, 7), (17, 23),
    (19, 11), (21, 5), (23, 17), (25, 25)], 1 ≤ p.2 ∧ p.2 ≤ 25 ∧ p.1 * p.2 % 26 = 1 := by decide

/-- R110: a residue that is not in the table is not coprime to 26. -/
theorem gcd_26_ne_one_of_not_mem_affTable : ∀ r < 26,
    r ∉ [1, 3, 5, 7, 9, 11, 15, 17, 19, 21, 23, 25] → Nat.gcd r 26 ≠ 1 := by decide

/-! ### How a transform of a position ends (R103, R104) -/

section Position

variable {i : Instr} {s : State} {f : Nat → Nat} (he : s.block.effect i = affPosition s.block f)
include he

theorem exec_position_noKey (hk : s.block.akv = false) :
    exec i s = .next (s.withBlock (s.block.finish 0 .noKey)) :=
  exec_of_fail (he.trans (affPosition_noKey hk f))

theorem exec_position_operand (hk : s.block.akv = true) (hx : 26 ≤ s.block.operand0) :
    exec i s = .next (s.withBlock (s.block.finish 0 .operand)) :=
  exec_of_fail (he.trans (affPosition_operand hk hx f))

theorem exec_position_ok (hf : ∀ x, f x < 26) (hk : s.block.akv = true) (hx : s.block.operand0 ≤ 25) :
    ∃ v : Word s.W, v.toNat = f s.block.operand0 ∧ exec i s = .next (s.withBlock (s.block.finish v .ok)) :=
  exec_of_succeed (he.trans (affPosition_ok hk hx f)) (fits_of_lt_256 ((hf _).trans (by decide)))

end Position

/-! ### How a transform of a character ends (R106, R107) -/

section Character

variable {i : Instr} {s : State} {f : Nat → Nat} (he : s.block.effect i = affCharacter s.block f)
include he

theorem exec_character_noKey (hk : s.block.akv = false) :
    exec i s = .next (s.withBlock (s.block.finish 0 .noKey)) :=
  exec_of_fail (he.trans (affCharacter_noKey hk f))

theorem exec_character_letter (hf : ∀ x, f x < 26) (hk : s.block.akv = true)
    (hl : isLetter s.block.operand0 = true) :
    ∃ v : Word s.W, v.toNat = letter (f (position s.block.operand0)) ∧
      exec i s = .next (s.withBlock (s.block.finish v .ok)) :=
  exec_of_succeed (he.trans (affCharacter_letter hk hl f)) (letter_fits (hf _))

theorem exec_character_upper (hf : ∀ x, f x < 26) (hk : s.block.akv = true)
    (hu : 0x41 ≤ s.block.operand0 ∧ s.block.operand0 ≤ 0x5A) :
    ∃ v : Word s.W, v.toNat = 0x61 + f (s.block.operand0 - 0x41) ∧
      exec i s = .next (s.withBlock (s.block.finish v .ok)) :=
  position_of_upper hu ▸ exec_character_letter he hf hk ((isLetter_iff _).2 (.inl hu))

theorem exec_character_lower (hf : ∀ x, f x < 26) (hk : s.block.akv = true)
    (hl : 0x61 ≤ s.block.operand0 ∧ s.block.operand0 ≤ 0x7A) :
    ∃ v : Word s.W, v.toNat = 0x61 + f (s.block.operand0 - 0x61) ∧
      exec i s = .next (s.withBlock (s.block.finish v .ok)) :=
  position_of_lower hl ▸ exec_character_letter he hf hk ((isLetter_iff _).2 (.inr hl))

/-- R106: a code that is no letter is the result as it is. -/
theorem exec_character_other (hk : s.block.akv = true) (hn : isLetter s.block.operand0 = false) :
    exec i s = .next (s.withBlock (s.block.finish s.block.op0 .ok)) := by
  rw [exec_eq, he, affCharacter_other hk hn]

end Character

/-- R105: the codes between and around the two ranges of letters. -/
theorem isLetter_eq_false_of_gap {ch : Nat} (h : ch < 0x41 ∨ (0x5A < ch ∧ ch < 0x61) ∨ 0x7A < ch) :
    isLetter ch = false := by
  rw [Bool.eq_false_iff, Ne, isLetter_iff]
  omega

/-- R105: a letter in lower case. -/
theorem letter_position {ch : Nat} (h : isLetter ch = true) :
    letter (position ch) = if 0x41 ≤ ch ∧ ch ≤ 0x5A then ch + 0x20 else ch := by
  rcases (isLetter_iff ch).1 h with hu | hl
  · rw [position_of_upper hu, if_pos hu, letter]; omega
  · rw [position_of_lower hl, if_neg (by omega), letter]; omega

/-! ### The two directions -/

/-- R8, R102: the remainder is the floor remainder. -/
theorem affInv_eq_fmod (ainv b y : Nat) :
    (affInv ainv b y : Int) = ((ainv : Int) * ((y : Int) - (b : Int))).fmod 26 := by
  rw [affInv_cast, Int.fmod_eq_emod_of_nonneg _ (by decide)]

/-- R101, R102, R108: with the inverse of `a`, the inverse direction takes a transformed position back. Modulo 26,
`a_inv * ((a*x + b) - b)` is `(a*a_inv) * x`. -/
theorem affInv_affFwd {a ainv : Nat} (b : Nat) {x : Nat} (hinv : a * ainv % 26 = 1) (hx : x < 26) :
    affInv ainv b (affFwd a b x) = x := by
  have hone : (a * ainv : Int) ≡ 1 [ZMOD 26] := by exact_mod_cast congrArg Nat.cast hinv
  have hfwd : (affFwd a b x : Int) ≡ a * x + b [ZMOD 26] := by
    rw [affFwd]; push_cast; exact Int.mod_modEq _ _
  have hback : (ainv * (affFwd a b x - b) : Int) ≡ x [ZMOD 26] := calc
    (ainv * (affFwd a b x - b) : Int) ≡ ainv * (a * x + b - b) [ZMOD 26] := (hfwd.sub_right _).mul_left _
    _ = a * ainv * x := by ring
    _ ≡ 1 * x [ZMOD 26] := hone.mul_right _
    _ = x := one_mul _
  have hcast : (affInv ainv b (affFwd a b x) : Int) = x := by
    rw [affInv_cast, hback, Int.emod_eq_of_lt (by omega) (by omega)]
  exact_mod_cast hcast

/-! ### The obligations -/

/-- Settles O16: coprime to 26, the candidate is the inverse; otherwise the gcd check fails. -/
theorem affKeyStoresKeyOrDropsIt : Obligations.AffKeyStoresKeyOrDropsIt := by
  refine ⟨fun _ => decode_ofNat_opcode .affKey, fun s => ⟨fun hg => ?_, exec_affKey_of_not_coprime⟩⟩
  obtain ⟨hlow, hhigh, hinv⟩ := inverseCandidate_spec _ 26 (by decide) hg
  obtain ⟨v, hv, hexec⟩ := exec_affKey_of_inverse hlow hhigh hinv
  exact ⟨v, hv ▸ hlow, hv ▸ hhigh, hv ▸ hinv, hexec⟩

/-- Settles O17: being an inverse, and being coprime to 26, depend on the residue alone. -/
theorem affKeyInverseTable : Obligations.AffKeyInverseTable := by
  refine fun s => ⟨fun x y hmem hx => ?_, fun hmem => ?_⟩
  · obtain ⟨hlow, hhigh, hinv⟩ := inverse_of_mem_affTable (x, y) hmem
    have hinv' : s.block.operand0 * y % 26 = 1 := by rw [← Nat.mod_mul_mod, hx, hinv]
    obtain ⟨v, hv, hexec⟩ := exec_affKey_of_inverse hlow hhigh hinv'
    exact ⟨_, hexec, hv, rfl, rfl⟩
  · have hg : Nat.gcd s.block.operand0 26 ≠ 1 := by
      rw [Nat.gcd_comm, Nat.gcd_rec]
      exact gcd_26_ne_one_of_not_mem_affTable _ (Nat.mod_lt _ (by decide)) hmem
    exact ⟨_, exec_affKey_of_not_coprime hg, rfl, rfl⟩

/-- Settles O18, by the ways a position transform ends. -/
theorem affEncTransformsPosition : Obligations.AffEncTransformsPosition :=
  ⟨fun _ => decode_ofNat_opcode .affEnc, fun _ =>
    ⟨exec_position_noKey rfl, exec_position_operand rfl, exec_position_ok rfl (affFwd_lt _ _)⟩⟩

/-- Settles O19, by the ways a position transform ends and the floor remainder. -/
theorem affDecInvertsPosition : Obligations.AffDecInvertsPosition := by
  refine ⟨fun _ => decode_ofNat_opcode .affDec, fun s =>
    ⟨exec_position_noKey rfl, exec_position_operand rfl, fun hk hx => ?_⟩⟩
  obtain ⟨v, hv, hexec⟩ := exec_position_ok (i := .affDec) rfl (affInv_lt _ _) hk hx
  exact ⟨v, hv ▸ affInv_eq_fmod _ _ _, hexec⟩

/-- Settles O20, by the ways a character transform ends. -/
theorem affEnccHandlesCharacters : Obligations.AffEnccHandlesCharacters :=
  ⟨fun _ => decode_ofNat_opcode .affEncc, fun _ =>
    ⟨exec_character_noKey rfl, fun hk h1 h2 => exec_character_upper rfl (affFwd_lt _ _) hk ⟨h1, h2⟩,
      fun hk h1 h2 => exec_character_lower rfl (affFwd_lt _ _) hk ⟨h1, h2⟩,
      fun hk hgap => exec_character_other rfl hk (isLetter_eq_false_of_gap hgap)⟩⟩

/-- Settles O21, by the ways a character transform ends and the floor remainder. -/
theorem affDeccHandlesCharacters : Obligations.AffDeccHandlesCharacters := by
  refine ⟨fun _ => decode_ofNat_opcode .affDecc, fun s =>
    ⟨exec_character_noKey rfl, fun hk h1 h2 => ?_, fun hk h1 h2 => ?_,
      fun hk hgap => exec_character_other rfl hk (isLetter_eq_false_of_gap hgap)⟩⟩
  · obtain ⟨v, hv, hexec⟩ := exec_character_upper (i := .affDecc) rfl (affInv_lt _ _) hk ⟨h1, h2⟩
    exact ⟨v, by rw [hv, Nat.cast_add, affInv_eq_fmod]; rfl, hexec⟩
  · obtain ⟨v, hv, hexec⟩ := exec_character_lower (i := .affDecc) rfl (affInv_lt _ _) hk ⟨h1, h2⟩
    exact ⟨v, by rw [hv, Nat.cast_add, affInv_eq_fmod]; rfl, hexec⟩

/-- Settles O23: the encrypted position is a position, and decryption takes it back. -/
theorem affinePositionRoundTrip : Obligations.AffinePositionRoundTrip := by
  intro s x hinv hk hx
  obtain ⟨v, hv, henc⟩ := exec_position_ok (i := .affEnc) (s := s.withBlock { s.block with op0 := x }) rfl
    (affFwd_lt _ _) hk hx
  have hpos : v.toNat ≤ 25 := hv ▸ Nat.le_of_lt_succ (affFwd_lt _ _ _)
  obtain ⟨w, hw, hdec⟩ := exec_position_ok (i := .affDec) (s := s.withBlock
    { ({ s.block with op0 := x } : Block s.W).finish v .ok with op0 := v }) rfl (affInv_lt _ _) hk hpos
  exact ⟨_, _, henc, rfl, hdec, rfl, calc
    w.toNat = affInv s.block.aff_ainv.toNat s.block.aff_b.toNat v.toNat := hw
    _ = affInv _ _ (affFwd s.block.aff_a.toNat s.block.aff_b.toNat x.toNat) := congrArg _ hv
    _ = x.toNat := affInv_affFwd _ (hinv.affKey hk).isInverse (Nat.lt_succ_of_le hx)⟩

/-- Settles O24: a letter becomes a letter whose position decryption takes back; any other code passes through
twice. -/
theorem affineCharacterRoundTrip : Obligations.AffineCharacterRoundTrip := by
  intro s ch hinv hk
  cases hl : isLetter ch.toNat with
  | true =>
    obtain ⟨v, hv, henc⟩ := exec_character_letter (i := .affEncc) (s := s.withBlock { s.block with op0 := ch }) rfl
      (affFwd_lt _ _) hk hl
    have hvl : isLetter v.toNat = true := hv ▸ isLetter_letter (affFwd_lt _ _ _)
    obtain ⟨w, hw, hdec⟩ := exec_character_letter (i := .affDecc) (s := s.withBlock
      { ({ s.block with op0 := ch } : Block s.W).finish v .ok with op0 := v }) rfl (affInv_lt _ _) hk hvl
    have hpos : position v.toNat = affFwd s.block.aff_a.toNat s.block.aff_b.toNat (position ch.toNat) :=
      (congrArg position hv).trans (position_letter (affFwd_lt _ _ _))
    exact ⟨_, _, henc, rfl, hdec, rfl, calc
      w.toNat = letter (affInv s.block.aff_ainv.toNat s.block.aff_b.toNat (position v.toNat)) := hw
      _ = letter (position ch.toNat) := by
        rw [hpos, affInv_affFwd _ (hinv.affKey hk).isInverse (position_lt hl)]
      _ = _ := letter_position hl⟩
  | false =>
    have henc := exec_character_other (i := .affEncc) (s := s.withBlock { s.block with op0 := ch }) rfl hk hl
    have hdec := exec_character_other (i := .affDecc) (s := s.withBlock
      { ({ s.block with op0 := ch } : Block s.W).finish ch .ok with op0 := ch }) rfl hk hl
    have hup : ¬ (0x41 ≤ ch.toNat ∧ ch.toNat ≤ 0x5A) := fun hu => by
      simp [(isLetter_iff ch.toNat).2 (.inl hu)] at hl
    exact ⟨_, _, henc, rfl, hdec, rfl, (if_neg hup).symm⟩

end Sys2Proof.Machine
end

section
/-! PROOFS. Group 2, the RSA engine: the arithmetic of a key and of the round trip, the ends of RSA.KEY, RSA.ENC and
RSA.DEC, each said once, and the obligations settled from them. -/

namespace Sys2Proof.Machine

/-! ### Powers modulo two primes (R125), and `phi` (R120) -/

/-- Fermat's little theorem for every base: an exponent that is 1 more than a multiple of `p - 1` changes nothing
modulo `p`. -/
theorem pow_modEq_self_of_prime {p k : Nat} (hp : p.Prime) (hk : k ≠ 0) (hdvd : p - 1 ∣ k - 1) (m : Nat) :
    m ^ k ≡ m [MOD p] := by
  by_cases hm : p ∣ m
  · exact (Nat.modEq_zero_iff_dvd.2 (dvd_pow hm hk)).trans (Nat.modEq_zero_iff_dvd.2 hm).symm
  · obtain ⟨t, ht⟩ := hdvd
    have hfermat : m ^ (p - 1) ≡ 1 [MOD p] :=
      Nat.ModEq.pow_card_sub_one_eq_one hp ((Nat.Prime.coprime_iff_not_dvd hp).2 hm).symm
    calc
      m ^ k = (m ^ (p - 1)) ^ t * m := by rw [← pow_mul, ← ht, ← pow_succ, Nat.sub_one_add_one hk]
      _ ≡ 1 ^ t * m [MOD p] := (hfermat.pow t).mul_right m
      _ = m := by rw [one_pow, one_mul]

/-- R125: modulo the product of two different primes, the same for an exponent that is 1 more than a multiple of
`phi`. -/
theorem pow_modEq_self_of_primes {p q k : Nat} (hp : p.Prime) (hq : q.Prime) (hne : p ≠ q) (hk : k ≠ 0)
    (hdvd : (p - 1) * (q - 1) ∣ k - 1) (m : Nat) : m ^ k ≡ m [MOD p * q] :=
  (Nat.modEq_and_modEq_iff_modEq_mul ((Nat.coprime_primes hp hq).2 hne)).1
    ⟨pow_modEq_self_of_prime hp hk (dvd_of_mul_right_dvd hdvd) m,
      pow_modEq_self_of_prime hq hk (dvd_of_mul_left_dvd hdvd) m⟩

/-- R120, R121: `phi` is at least 2 for any two primes that are not both 2. -/
theorem two_le_phi {p q : Nat} (hp : p.Prime) (hq : q.Prime) (hne : ¬ (p = 2 ∧ q = 2)) :
    2 ≤ (p - 1) * (q - 1) := by
  have hp2 := hp.two_le
  have hq2 := hq.two_le
  rcases eq_or_ne p 2 with rfl | hp3
  · have hq3 : q ≠ 2 := fun hq3 => hne ⟨rfl, hq3⟩
    omega
  · exact Nat.mul_le_mul (show 2 ≤ p - 1 by omega) (show 1 ≤ q - 1 by omega)

end Sys2Proof.Machine

namespace Sys2Proof.Safety

open Sys2Proof.Machine

variable {W : Width} {b : Block W}

/-! ### The numbers of a stored key (R22, R34) -/

theorem RsaKeyOk.modulus_ne_zero (h : RsaKeyOk b) : b.rsa_n.toNat ≠ 0 := by
  have hp := (isPrime_iff_prime _).1 h.pPrime
  have hq := (isPrime_iff_prime _).1 h.qPrime
  exact h.modulus ▸ Nat.mul_ne_zero hp.ne_zero hq.ne_zero

theorem RsaKeyOk.encExponent_ne_zero (h : RsaKeyOk b) : b.rsa_e.toNat ≠ 0 := fun he => by
  simpa [he] using h.isInverse

theorem RsaKeyOk.decExponent_ne_zero (h : RsaKeyOk b) : b.rsa_d.toNat ≠ 0 :=
  Nat.ne_of_gt h.dLow

/-- R85: the product of the two exponents is 1 more than a multiple of `phi`. -/
theorem RsaKeyOk.phi_dvd (h : RsaKeyOk b) :
    (b.rsa_p.toNat - 1) * (b.rsa_q.toNat - 1) ∣ b.rsa_e.toNat * b.rsa_d.toNat - 1 := by
  have hinv := h.isInverse ▸ Nat.dvd_sub_mod (n := b.rsa_phi.toNat) (b.rsa_e.toNat * b.rsa_d.toNat)
  rwa [h.phi] at hinv

/-- R125: the decryption exponent takes the power by `e` back, for a key of two different primes. -/
theorem RsaKeyOk.pow_pow_mod (h : RsaKeyOk b) (hne : b.rsa_p ≠ b.rsa_q) (m : Nat) :
    (m ^ b.rsa_e.toNat % b.rsa_n.toNat) ^ b.rsa_d.toNat % b.rsa_n.toNat = m % b.rsa_n.toNat := by
  rw [← Nat.pow_mod, ← pow_mul, h.modulus]
  exact pow_modEq_self_of_primes ((isPrime_iff_prime _).1 h.pPrime) ((isPrime_iff_prime _).1 h.qPrime)
    (mt BitVec.eq_of_toNat_eq hne) (Nat.mul_ne_zero h.encExponent_ne_zero h.decExponent_ne_zero) h.phi_dvd m

end Sys2Proof.Safety

namespace Sys2Proof.Machine

open Sys2Proof.Safety

variable {W : Width}

/-! ### How RSA.KEY ends (R120) -/

/-- R120: the check of the two primes and the check of `e` fail with the same code. -/
theorem Block.rsaKey_invalidKey {b : Block W} (h : ¬ b.operand0.Prime ∨ ¬ b.operand1.Prime ∨
    Nat.gcd b.operand2 ((b.operand0 - 1) * (b.operand1 - 1)) ≠ 1) : b.rsaKey = b.dropRsa.fail .invalidKey := by
  simp only [← isPrime_iff_prime, Bool.not_eq_true, ← euclidGcd_eq_gcd, ← or_assoc] at h
  rcases h with hprime | hgcd
  · exact if_pos hprime
  · exact (if_congr Iff.rfl rfl (if_pos hgcd)).trans (ite_self _)

section Coprime

variable {b : Block W} (hp : isPrime b.operand0 = true) (hq : isPrime b.operand1 = true)
  (hg : euclidGcd b.operand2 ((b.operand0 - 1) * (b.operand1 - 1)) = 1)
include hp hq hg

theorem Block.rsaKey_range (hn : 2 ^ W.bits ≤ b.operand0 * b.operand1) : b.rsaKey = b.dropRsa.fail .range := by
  simp only [Block.rsaKey, hp, hq, hg, hn, ne_eq, not_true, Bool.true_eq_false, or_self, if_true, if_false]

theorem Block.rsaKey_noInverse (hn : ¬ 2 ^ W.bits ≤ b.operand0 * b.operand1)
    (hd : modInverse b.operand2 ((b.operand0 - 1) * (b.operand1 - 1)) = none) :
    b.rsaKey = b.dropRsa.fail .noInverse := by
  simp only [Block.rsaKey, hp, hq, hg, hn, hd, ne_eq, not_true, Bool.true_eq_false, or_self, if_false]

end Coprime

theorem RsaKeyFound.rsaKey_eq {b : Block W} {d : Nat} (h : RsaKeyFound b d) :
    b.rsaKey = (b.withRsaKey d).succeed d := by
  simp only [Block.rsaKey, h.pPrime, h.qPrime, h.coprime, not_le.2 h.fits, h.inverse, ne_eq, not_true,
    Bool.true_eq_false, or_self, if_false, Block.withRsaKey]

/-- R120, R121: with p = q = 2, `phi` is 1, to which every `e` is coprime and modulo which there is no inverse. -/
theorem Block.rsaKey_two_two {b : Block W} (hp : b.operand0 = 2) (hq : b.operand1 = 2) :
    b.rsaKey = b.dropRsa.fail .noInverse := by
  have hphi : (b.operand0 - 1) * (b.operand1 - 1) = 1 := by rw [hp, hq]
  have hfits : 4 < 2 ^ W.bits := fits_of_lt_256 (by decide)
  have htwo : isPrime 2 = true := by decide
  refine Block.rsaKey_noInverse (hp ▸ htwo) (hq ▸ htwo) ?_ (by rw [hp, hq]; omega) ?_
  · rw [hphi, euclidGcd_eq_gcd, Nat.gcd_one_right]
  · rw [hphi]
    exact (modInverse_eq_none_iff _ _).2 (.inl le_rfl)

/-- R85 (b), R120: the inverse exists for coprime operands whose `phi` is at least 2. -/
theorem exists_rsaKeyFound {b : Block W} (hp : b.operand0.Prime) (hq : b.operand1.Prime)
    (hg : Nat.gcd b.operand2 ((b.operand0 - 1) * (b.operand1 - 1)) = 1)
    (hn : b.operand0 * b.operand1 < 2 ^ W.bits) (hne : ¬ (b.operand0 = 2 ∧ b.operand1 = 2)) :
    ∃ d, RsaKeyFound b d :=
  ⟨_, (isPrime_iff_prime _).2 hp, (isPrime_iff_prime _).2 hq, (euclidGcd_eq_gcd _ _).trans hg, hn,
    (modInverse_eq_some_iff _ _ _).2 (inverseCandidate_spec _ _ (two_le_phi hp hq hne) hg)⟩

/-- R120, R161: an RSA.KEY that fails leaves no key. -/
theorem exec_rsaKey_of_fail {s : State} {e : ErrCode} (h : s.block.rsaKey = s.block.dropRsa.fail e) :
    exec .rsaKey s = .next (s.withBlock (s.block.dropRsa.finish 0 e)) := by
  rw [exec_eq, Block.effect, h, Block.fail]

/-! ### How RSA.ENC and RSA.DEC end (R122, R124) -/

section Powers

variable {s : State}

theorem exec_rsaEnc_noKey (hk : s.block.rkv = false) :
    exec .rsaEnc s = .next (s.withBlock (s.block.finish 0 .noKey)) :=
  exec_of_fail (if_pos hk)

theorem exec_rsaEnc_operand (hk : s.block.rkv = true) (hm : 2 ^ Config.msgBits ≤ s.block.operand0) :
    exec .rsaEnc s = .next (s.withBlock (s.block.finish 0 .operand)) :=
  exec_of_fail (by rw [Block.effect, Block.rsaEnc, if_neg (by simp [hk]), if_pos hm])

/-- R87, R122: with a modulus and an exponent other than 0, RSA.ENC gives the power. -/
theorem exec_rsaEnc_ok (hk : s.block.rkv = true) (hm : s.block.operand0 < 2 ^ Config.msgBits)
    (hn : s.block.rsa_n.toNat ≠ 0) (he : s.block.rsa_e.toNat ≠ 0) :
    ∃ v : Word s.W, v.toNat = s.block.operand0 ^ s.block.rsa_e.toNat % s.block.rsa_n.toNat ∧
      exec .rsaEnc s = .next (s.withBlock (s.block.finish v .ok)) := by
  rw [← modPow_pos _ _ _ he]
  refine exec_of_succeed ?_ (modPow_fits hn)
  rw [Block.effect, Block.rsaEnc, if_neg (by simp [hk]), if_neg (not_le.2 hm)]

theorem exec_rsaDec_noKey (hk : s.block.rkv = false) :
    exec .rsaDec s = .next (s.withBlock (s.block.finish 0 .noKey)) :=
  exec_of_fail (if_pos hk)

/-- R87, R124: with a modulus and an exponent other than 0, RSA.DEC gives the power. -/
theorem exec_rsaDec_ok (hk : s.block.rkv = true) (hn : s.block.rsa_n.toNat ≠ 0) (hd : s.block.rsa_d.toNat ≠ 0) :
    ∃ v : Word s.W, v.toNat = s.block.operand0 ^ s.block.rsa_d.toNat % s.block.rsa_n.toNat ∧
      exec .rsaDec s = .next (s.withBlock (s.block.finish v .ok)) := by
  rw [← modPow_pos _ _ _ hd]
  refine exec_of_succeed ?_ (modPow_fits hn)
  rw [Block.effect, Block.rsaDec, if_neg (by simp [hk])]

end Powers

/-! ### The obligations on the RSA engine -/

/-- Settles O25, by the checks of RSA.KEY in their order; the numbers it stores are those of a valid key. -/
theorem rsaKeyStoresKeyOrDropsIt : Obligations.RsaKeyStoresKeyOrDropsIt := by
  refine ⟨fun _ => decode_ofNat_opcode .rsaKey, fun s =>
    ⟨fun h => exec_rsaKey_of_fail (Block.rsaKey_invalidKey h), fun hp hq hg hn => ?_,
      fun hp hq => exec_rsaKey_of_fail (Block.rsaKey_two_two hp hq), fun hp hq hg hn hne => ?_⟩⟩
  · exact exec_rsaKey_of_fail (Block.rsaKey_range ((isPrime_iff_prime _).2 hp) ((isPrime_iff_prime _).2 hq)
      ((euclidGcd_eq_gcd _ _).trans hg) hn)
  · obtain ⟨d, hd⟩ := exists_rsaKeyFound hp hq hg hn hne
    have key := hd.keyOk
    exact ⟨_, _, _, key.modulus, key.phi, key.dLow, key.dHigh, key.isInverse,
      by rw [exec_eq, Block.effect, hd.rsaKey_eq]; rfl⟩

/-- Settles O26: the invariant gives a modulus and an exponent other than 0. -/
theorem rsaEncGivesThePower : Obligations.RsaEncGivesThePower :=
  ⟨fun _ => decode_ofNat_opcode .rsaEnc, fun _ hinv => ⟨exec_rsaEnc_noKey, exec_rsaEnc_operand, fun hk hm =>
    exec_rsaEnc_ok hk (Nat.lt_succ_of_le hm) (hinv.rsaKey hk).modulus_ne_zero
      (hinv.rsaKey hk).encExponent_ne_zero⟩⟩

/-- Settles O27: the invariant gives a modulus and an exponent other than 0. -/
theorem rsaDecGivesTheWholePower : Obligations.RsaDecGivesTheWholePower :=
  ⟨fun _ => decode_ofNat_opcode .rsaDec, fun _ hinv => ⟨exec_rsaDec_noKey, fun hk =>
    exec_rsaDec_ok hk (hinv.rsaKey hk).modulus_ne_zero (hinv.rsaKey hk).decExponent_ne_zero⟩⟩

/-- Settles O29: RSA.DEC raises RSA.ENC's result to the decryption exponent, which takes the power back. -/
theorem rsaRoundTrip : Obligations.RsaRoundTrip := by
  intro s m hinv hk hne hm
  have key := hinv.rsaKey hk
  obtain ⟨v, hv, henc⟩ := exec_rsaEnc_ok (s := s.withBlock { s.block with op0 := m }) hk
    (Nat.lt_succ_of_le hm) key.modulus_ne_zero key.encExponent_ne_zero
  obtain ⟨w, hw, hdec⟩ := exec_rsaDec_ok (s := s.withBlock
    { ({ s.block with op0 := m } : Block s.W).finish v .ok with op0 := v }) hk
    key.modulus_ne_zero key.decExponent_ne_zero
  have hback : w.toNat = m.toNat % s.block.rsa_n.toNat := calc
    w.toNat = v.toNat ^ s.block.rsa_d.toNat % s.block.rsa_n.toNat := hw
    _ = (m.toNat ^ s.block.rsa_e.toNat % s.block.rsa_n.toNat) ^ s.block.rsa_d.toNat % s.block.rsa_n.toNat := by
      rw [hv]; rfl
    _ = m.toNat % s.block.rsa_n.toNat := key.pow_pow_mod hne m.toNat
  exact ⟨_, _, henc, rfl, hdec, rfl, hback, fun hlt => hback.trans (Nat.mod_eq_of_lt hlt)⟩

end Sys2Proof.Machine
end

section
/-! PROOFS. The host's message strings (R123): their value, their length and their digits, and the obligation settled
from them. -/

namespace Sys2Proof.Machine

/-! ### What `parse` makes of a string -/

/-- R123: a last digit doubles the value and is added to it. -/
theorem parseMessage_concat (ds : List Bool) (d : Bool) :
    parseMessage (ds ++ [d]) = Nat.bit d (parseMessage ds) := by
  rw [parseMessage, List.foldl_append, Nat.bit_val]
  rfl

/-- R123: zeros on the left do not change the value. -/
theorem parseMessage_replicate_false_append (k : Nat) (ds : List Bool) :
    parseMessage (List.replicate k false ++ ds) = parseMessage ds := by
  induction k with
  | zero => rfl
  | succ k ih => exact ih

/-- R123: each digit is the bit of the value at its distance from the string's end. -/
theorem getElem?_eq_testBit_parseMessage (ds : List Bool) {j : Nat} (hj : j < ds.length) :
    ds[j]? = some ((parseMessage ds).testBit (ds.length - 1 - j)) := by
  induction ds using List.reverseRecOn with
  | nil => simp at hj
  | append_singleton ds d ih =>
    rw [parseMessage_concat, List.length_append, List.length_singleton]
    rcases Nat.lt_or_ge j ds.length with hlt | hge
    · have hpos : ds.length + 1 - 1 - j = (ds.length - 1 - j) + 1 := by omega
      rw [List.getElem?_append_left hlt, ih hlt, hpos, Nat.testBit_bit_succ]
    · have hlast : j = ds.length := by
        rw [List.length_append, List.length_singleton] at hj
        omega
      rw [hlast, List.getElem?_concat_length, Nat.add_sub_cancel, Nat.sub_self, Nat.testBit_bit_zero]

/-! ### The digits `format` makes -/

theorem binaryDigits_of_lt_two (fuel : Nat) {m : Nat} (h : m < 2) : binaryDigits fuel m = [decide (m = 1)] := by
  cases fuel with
  | zero => rw [binaryDigits, Nat.mod_eq_of_lt h]
  | succ fuel => rw [binaryDigits, if_pos h]

theorem binaryDigits_of_two_le (fuel : Nat) {m : Nat} (h : 2 ≤ m) :
    binaryDigits (fuel + 1) m = binaryDigits fuel (m / 2) ++ [decide (m % 2 = 1)] := by
  rw [binaryDigits, if_neg (by omega)]

theorem parseMessage_binaryDigits {fuel m : Nat} (h : m ≤ fuel) : parseMessage (binaryDigits fuel m) = m := by
  induction fuel generalizing m with
  | zero => rw [Nat.le_zero.1 h]; rfl
  | succ fuel ih =>
    rcases Nat.lt_or_ge m 2 with hlt | hge
    · rw [binaryDigits_of_lt_two _ hlt]
      interval_cases m <;> rfl
    · rw [binaryDigits_of_two_le _ hge, parseMessage_concat, ih (by omega), ← Nat.testBit_zero]
      exact Nat.bit_testBit_zero_shiftRight_one m

theorem length_binaryDigits {fuel m : Nat} (h : m ≤ fuel) : (binaryDigits fuel m).length = Nat.log2 m + 1 := by
  induction fuel generalizing m with
  | zero => rw [Nat.le_zero.1 h]; rfl
  | succ fuel ih =>
    rcases Nat.lt_or_ge m 2 with hlt | hge
    · rw [binaryDigits_of_lt_two _ hlt, Nat.log2_def, if_neg (by omega), List.length_singleton]
    · rw [binaryDigits_of_two_le _ hge, List.length_append, ih (by omega), Nat.log2_def m, if_pos hge,
        List.length_singleton]

theorem parseMessage_formatMessage (m : Nat) : parseMessage (formatMessage m) = m :=
  (parseMessage_replicate_false_append _ _).trans (parseMessage_binaryDigits le_rfl)

/-- R123: as many digits as `m` has significant bits, and at least 8. -/
theorem length_formatMessage (m : Nat) : (formatMessage m).length = max 8 (Nat.log2 m + 1) := by
  rw [formatMessage, List.length_append, List.length_replicate, length_binaryDigits le_rfl, Config.msgBits]
  omega

/-- Settles O51, by the length of a message string and its value, which determine its digits. -/
theorem messageStringsCarryTheInteger : Obligations.MessageStringsCarryTheInteger := by
  intro m
  have hlen := length_formatMessage m
  refine ⟨parseMessage_formatMessage m, hlen ▸ le_max_left _ _, fun hm => ?_, fun hm => ?_⟩
  · have hlog : Nat.log2 m < 8 := by
      rcases Nat.eq_zero_or_pos m with rfl | hpos
      · decide
      · exact (Nat.log2_lt hpos.ne').2 (by omega)
    have hlen8 : (formatMessage m).length = 8 := by omega
    refine ⟨hlen8, fun j hj => ?_⟩
    have hdigit := getElem?_eq_testBit_parseMessage (formatMessage m) (hlen8 ▸ hj)
    rwa [hlen8, parseMessage_formatMessage] at hdigit
  · have hlog : 8 ≤ Nat.log2 m := (Nat.le_log2 (by omega)).2 hm
    omega

end Sys2Proof.Machine
end

section
/-! PROOFS. Key management: how the two DROP commands end, and the obligations settled from it. -/

namespace Sys2Proof.Machine

/-- R31, R140, R141: a command that ends well with result 0 on a changed block `c` leaves `c` finished with RES 0. -/
theorem exec_of_succeed_zero {i : Instr} {s : State} {c : Block s.W} (h : s.block.effect i = c.succeed 0) :
    exec i s = .next (s.withBlock (c.finish 0 .ok)) := by
  have hzero : c.succeed 0 = c.finish 0 .ok := c.succeed_eq 0
  rw [exec_eq, h, hzero]

/-- R140: AFF.DROP ends well in every state, with the affine store dropped. -/
theorem exec_affDrop (s : State) :
    exec .affDrop s = .next (s.withBlock (s.block.dropAff.finish 0 .ok)) :=
  exec_of_succeed_zero rfl

/-- R141: RSA.DROP ends well in every state, with the RSA store dropped. -/
theorem exec_rsaDrop (s : State) :
    exec .rsaDrop s = .next (s.withBlock (s.block.dropRsa.finish 0 .ok)) :=
  exec_of_succeed_zero rfl

/-! ### The obligations -/

/-- Settles O22: the affine store without a key, finished, is the state the statement writes out. -/
theorem affDropClearsAffineStore : Obligations.AffDropClearsAffineStore :=
  ⟨fun _ => decode_ofNat_opcode .affDrop, exec_affDrop⟩

/-- Settles O28: the RSA store without a key, finished, is the state the statement writes out. -/
theorem rsaDropClearsRsaStore : Obligations.RsaDropClearsRsaStore :=
  ⟨fun _ => decode_ofNat_opcode .rsaDrop, exec_rsaDrop⟩

end Sys2Proof.Machine
end

section
/-! PROOFS. Errors: the errors each command can end in, that a command which ends in one leaves RES 0, and the
obligations settled from it. -/

namespace Sys2Proof.Machine

open Sys2Proof.Safety

variable {W : Width}

/-! ### How every command ends (R31, R160) -/

/-- The errors each command can raise: the column "raised by" of R150, read for one command. -/
def errorsOf : Instr → List ErrCode
  | .gcd | .isprime | .affDrop | .rsaDrop => []
  | .modinv => [.noInverse]
  | .modpow => [.divZero]
  | .affKey => [.invalidKey]
  | .affEnc | .affDec | .rsaEnc => [.noKey, .operand]
  | .affEncc | .affDecc | .rsaDec => [.noKey]
  | .rsaKey => [.invalidKey, .noInverse, .range]

/-- R31, R160: the block of a command that ended well, or in one of the errors `es` with RES 0. -/
def EndsIn (es : List ErrCode) (c : Block W) : Prop := c.err = 0 ∨ ∃ e ∈ es, c.res = 0 ∧ c.err = e.code

theorem endsIn_of_succeed {es : List ErrCode} {c d : Block W} {n : Nat} (h : c = d.succeed n) : EndsIn es c :=
  .inl (h ▸ rfl)

theorem endsIn_of_fail {es : List ErrCode} {e : ErrCode} {c d : Block W} (he : e ∈ es) (h : c = d.fail e) :
    EndsIn es c :=
  .inr ⟨e, he, h ▸ rfl, h ▸ rfl⟩

theorem EndsIn.res_eq_zero {es : List ErrCode} {c : Block W} (h : EndsIn es c) (he : c.err ≠ 0) : c.res = 0 := by
  obtain ⟨e, -, hres, -⟩ := h.resolve_left he
  exact hres

theorem EndsIn.err_mem {es : List ErrCode} {c : Block W} (h : EndsIn es c) : c.err ∈ 0 :: es.map ErrCode.code := by
  rcases h with hok | ⟨e, hmem, -, herr⟩
  · exact hok ▸ List.mem_cons_self
  · exact herr ▸ List.mem_cons_of_mem _ (List.mem_map_of_mem hmem)

/-- R103, R104: a position transform checks the key, then the position. -/
theorem endsIn_affPosition (b : Block W) (f : Nat → Nat) : EndsIn [.noKey, .operand] (affPosition b f) := by
  rw [affPosition]
  split
  · exact endsIn_of_fail (by simp) rfl
  · split
    · exact endsIn_of_fail (by simp) rfl
    · exact endsIn_of_succeed rfl

/-- R106, R107: a character transform checks the key alone. -/
theorem endsIn_affCharacter (b : Block W) (f : Nat → Nat) : EndsIn [.noKey] (affCharacter b f) := by
  rw [affCharacter]
  split
  · exact endsIn_of_fail (by simp) rfl
  · split <;> exact endsIn_of_succeed rfl

/-- R150, R160: every command ends well, or in an error of its own with RES 0. -/
theorem Block.endsIn_effect (b : Block W) (i : Instr) : EndsIn (errorsOf i) (b.effect i) := by
  cases i with
  | gcd => exact endsIn_of_succeed rfl
  | isprime => exact endsIn_of_succeed rfl
  | modinv =>
    rcases b.modinv_cases with h | ⟨x, h⟩
    · exact endsIn_of_fail (by simp [errorsOf]) h
    · exact endsIn_of_succeed h
  | modpow =>
    rcases b.modpow_cases with h | ⟨x, h⟩
    · exact endsIn_of_fail (by simp [errorsOf]) h
    · exact endsIn_of_succeed h
  | affKey =>
    rcases b.affKey_cases with h | ⟨x, h⟩
    · exact endsIn_of_fail (by simp [errorsOf]) h
    · exact endsIn_of_succeed h
  | affEnc => exact endsIn_affPosition b _
  | affDec => exact endsIn_affPosition b _
  | affEncc => exact endsIn_affCharacter b _
  | affDecc => exact endsIn_affCharacter b _
  | affDrop => exact endsIn_of_succeed rfl
  | rsaKey =>
    rcases b.rsaKey_cases with ⟨e, he, h⟩ | ⟨n, phi, d, h⟩
    · exact endsIn_of_fail (by simpa [errorsOf] using he) h
    · exact endsIn_of_succeed h
  | rsaEnc =>
    rcases b.rsaEnc_cases with ⟨e, he, h⟩ | ⟨x, h⟩
    · exact endsIn_of_fail (by simpa [errorsOf] using he) h
    · exact endsIn_of_succeed h
  | rsaDec =>
    rcases b.rsaDec_cases with h | ⟨x, h⟩
    · exact endsIn_of_fail (by simp [errorsOf]) h
    · exact endsIn_of_succeed h
  | rsaDrop => exact endsIn_of_succeed rfl

/-! ### What a failing command leaves of the key stores (R161) -/

theorem Block.affKey_of_err {b : Block W} (h : b.affKey.err ≠ 0) : b.affKey.akv = false ∧ AffZero b.affKey := by
  have hk : b.affKey.akv = false := Bool.eq_false_iff.2 (mt b.affKey_akv_iff.1 h)
  exact ⟨hk, b.affStoreOk_affKey.1 hk⟩

theorem Block.rsaKey_of_err {b : Block W} (h : b.rsaKey.err ≠ 0) : b.rsaKey.rkv = false ∧ RsaZero b.rsaKey := by
  have hk : b.rsaKey.rkv = false := Bool.eq_false_iff.2 (mt b.rsaKey_rkv_iff.1 h)
  exact ⟨hk, b.rsaStoreOk_rsaKey.1 hk⟩

/-- R161: a failing command other than AFF.KEY keeps the affine store, for AFF.DROP does not fail. -/
theorem Block.sameAffStore_of_err {b : Block W} {i : Instr} (hi : i ≠ .affKey) (h : (b.effect i).err ≠ 0) :
    SameAffStore b (b.effect i) :=
  Block.sameAffStore_effect hi (fun hd => h (hd ▸ rfl)) b

/-- R161: a failing command other than RSA.KEY keeps the RSA store, for RSA.DROP does not fail. -/
theorem Block.sameRsaStore_of_err {b : Block W} {i : Instr} (hi : i ≠ .rsaKey) (h : (b.effect i).err ≠ 0) :
    SameRsaStore b (b.effect i) :=
  Block.sameRsaStore_effect hi (fun hd => h (hd ▸ rfl)) b

/-! ### The obligations -/

/-- Settles O31: an error leaves RES 0; a KEY command that fails empties its store, any other keeps it. -/
theorem errorLeavesNoPartialResult : Obligations.ErrorLeavesNoPartialResult := by
  intro i s t h herr
  rw [exec_eq] at h
  cases h
  refine ⟨_, rfl, (s.block.endsIn_effect i).res_eq_zero herr, ?_, fun hi => Block.sameAffStore_of_err hi herr,
    ?_, fun hi => Block.sameRsaStore_of_err hi herr⟩
  · rintro rfl
    exact Block.affKey_of_err herr
  · rintro rfl
    exact Block.rsaKey_of_err herr

/-- Settles O32: the code is 0 or that of one of the command's own errors, and one clause of the statement speaks of
each command. -/
theorem errorCodesOfEachCommand : Obligations.ErrorCodesOfEachCommand := by
  intro i s t h
  rw [exec_eq] at h
  cases h
  have hmem := (s.block.endsIn_effect i).err_mem
  cases i
  all_goals simpa [errorsOf, ErrCode.code] using hmem

end Sys2Proof.Machine
end

section
/-! PROOFS. Reset and the end of a run: the induction over reachable states, the reset as a step, the host's turn
without an action left, and the obligations settled from them. -/

namespace Sys2Proof.Machine

open Sys2Proof.Safety

/-- R197: a property of the block that holds at reset and that every step keeps holds of every reachable state's
block; another host program does not touch the block. -/
theorem block_of_reachable (P : ∀ {W : Width}, Block W → Prop) (hreset : ∀ W, P (Block.reset : Block W))
    (hstep : ∀ s t : State, P s.block → step s = .next t → P t.block) {s : State} (h : Reachable s) : P s.block := by
  induction h with
  | @fresh s hfresh =>
    have hblock : s.block = Block.reset := hfresh
    exact hblock ▸ hreset s.W
  | step _ hnext ih => exact hstep _ _ ih hnext
  | rehost _ _ _ _ ih => exact ih

/-- R180: the host's reset is the reset block with the index moved on. -/
theorem State.hostAct_reset (s : State) :
    s.hostAct .reset = { s with block := (State.resetAt s.W).block, index := s.index + 1 } := rfl

/-- R183: a host with no action left does nothing. -/
theorem State.hostStep_of_length_le {s : State} (h : s.prog.length ≤ s.index) : s.hostStep = s := by
  rw [State.hostStep, List.getElem?_eq_none h]

/-! ### The obligations -/

/-- Settles O5, by induction on how the state is reached: R34 holds at reset (O3) and every step keeps it (O4). -/
theorem reachableStatesSatisfyInvariants : Obligations.ReachableStatesSatisfyInvariants :=
  fun _ => block_of_reachable Inv invariantsHoldAtReset stepKeepsInvariants

/-- Settles O2: the step is the host's next action, the reset, but for the latency field. -/
theorem resetEventZeroesTheBlock : Obligations.ResetEventZeroesTheBlock := by
  intro s ht ha
  obtain ⟨w, hs⟩ := exists_step_of_action ht ha
  rw [s.hostAct_reset] at hs
  exact ⟨w, hs⟩

/-- Settles O50: without a command in flight it is the host's turn, and the host has no action left. -/
theorem runOverStateIsFinal : Obligations.RunOverStateIsFinal := by
  intro s hover
  obtain ⟨hlist, hbusy⟩ := hover
  rw [step_of_hostTurn (engineTurn_of_not_busy hbusy), State.hostStep_of_length_le hlist]

end Sys2Proof.Machine
end

section
/-! PROOFS. Safety of the step: neither the engine's completion step nor the host's turn faults or refuses, and the
obligation settled from it. -/

namespace Sys2Proof.Machine

/-- Settles O7: the step is the engine's completion step or the host's turn, and each answers a next state. Where
the run is over it is the host's turn, which does nothing (log 6). -/
theorem noStepStops : Obligations.NoStepStops := by
  intro s
  obtain ⟨-, hengine⟩ | ⟨-, hhost⟩ := step_cases s
  · exact ⟨s.withBlock s.block.complete, hengine⟩
  · exact ⟨s.hostStep, hhost⟩

end Sys2Proof.Machine
end
